-- ==== Sys2Proof/Word.lean ====
section
/-! DEFINITION. The two kinds of number the machine holds (spec/00_scope.md R15, R16). A byte is named here. A register
value is a signed integer (R26): the spec's arithmetic is over the mathematical integers and is brought into the
register range by `wrapW` alone (Machine/Arith.lean), so the value is an `Int` and the width a property of the state that
every step keeps (log 6). -/

namespace Sys2Proof

/-- A byte: a memory cell, an opcode byte or an operand byte, bits 7 down to 0 (R15, R40). -/
abbrev Byte := BitVec 8

end Sys2Proof
end

