-- ==== Sys2Proof/Config.lean ====
section
/-! DEFINITION. The parameters of the hardware (spec/00_scope.md R6). The two the source leaves open are plain data that
every claim quantifies over (assumption log 1 and 2). The ones it fixes stand as numerals where they are used: 256 memory
cells of 8 bits (R40), 8 registers (R21), register 7 as the stack pointer (R24), 0 as the program counter at start (R37)
and as the address of an image's first byte (R172). -/

namespace Sys2Proof

/-- `REG_WIDTH`, an OPEN parameter (R6, R26; decision D1): a finite `W >= 10`, or `W = inf`. A width below ten cannot
be written down: `tenPlus k` is `W = 10 + k`. -/
inductive RegWidth where
  /-- a register of `10 + k` bits, two's complement -/
  | tenPlus (k : Nat)
  /-- `W = inf`: a register holds any integer -/
  | unbounded
  deriving DecidableEq, Repr

/-- The two open parameters of one machine. They do not change during a run (R38). -/
structure Config where
  /-- `REG_WIDTH` (R26) -/
  width  : RegWidth
  /-- `SP_INIT`, the reset value of register 7, in [0, 255] (R24) -/
  spInit : Byte
  deriving DecidableEq, Repr

end Sys2Proof
end

