-- ==== Sys2Proof/Machine/Arith.lean ====
section
/-! DEFINITION. The functions of spec/00_scope.md R16: `wrapW`, `zext_W`, `low8`, `tdiv`, and the register range. -/

namespace Sys2Proof.Machine

/-- The range of a register value (R16, R26): [-2^(W-1), 2^(W-1) - 1] for finite `W`, every integer for `W = inf`. -/
def inRange (w : RegWidth) (v : Int) : Bool :=
  match w with
  | .tenPlus k => decide (-2 ^ (9 + k) ≤ v) && decide (v < 2 ^ (9 + k))
  | .unbounded => true

/-- `wrapW(v)` (R16): for finite `W` the balanced remainder of `v` modulo `2^W`, the one integer of the register range
congruent to `v`; for `W = inf`, `v` itself. -/
def wrapW (w : RegWidth) (v : Int) : Int :=
  match w with
  | .tenPlus k => v.bmod (2 ^ (10 + k))
  | .unbounded => v

/-- `zext_W(b)` (R16, R49): the byte as the integer in [0, 255] that it holds. -/
def zextW (b : Byte) : Int := b.toNat

/-- `low8(v)` (R16): `v mod 256` with the non-negative remainder. -/
def low8 (v : Int) : Byte := BitVec.ofNat 8 (v % 256).toNat

/-- `tdiv(a, b)` for `b != 0` (R16): `sign(a) * sign(b) * floor(|a| / |b|)`. DIV asks for a zero divisor first
(R125), so no instruction uses its value there. -/
def tdiv (a b : Int) : Int := a.sign * b.sign * ((a.natAbs / b.natAbs : Nat) : Int)

end Sys2Proof.Machine
end

