-- ==== Sys2Proof/Syntax.lean ====
section
/-! DEFINITION. The instruction set as syntax: the nine rows of the opcode table (spec/30_encoding.md R64), a closed
set (R73). -/

namespace Sys2Proof

/-- An instruction with its operand bytes. A register operand is the WHOLE operand byte, an index in [0, 255] that is
neither reduced nor masked (R63); whether the register file accepts it is asked when the instruction executes (R22). -/
inductive Instr where
  /-- HLT, format Z (R89) -/
  | hlt
  /-- LDI r, v, format RI (R100) -/
  | ldi (r v : Byte)
  /-- PRN r, format R (R101) -/
  | prn (r : Byte)
  /-- PUSH r, format R (R110) -/
  | push (r : Byte)
  /-- POP r, format R (R111) -/
  | pop (r : Byte)
  /-- ADD a, b, format RR (R122) -/
  | add (a b : Byte)
  /-- SUB a, b, format RR (R123) -/
  | sub (a b : Byte)
  /-- MUL a, b, format RR (R124) -/
  | mul (a b : Byte)
  /-- DIV a, b, format RR (R125) -/
  | div (a b : Byte)
  deriving DecidableEq, Repr

end Sys2Proof
end

