-- ==== Sys2Proof/Decode.lean ====
section
/-! DEFINITION. The decoder and the encoder (spec/30_encoding.md R60 to R72). -/

namespace Sys2Proof

/-- The nine instructions as the decoder tells them apart, without their operands (R64). -/
inductive Opcode where
  | hlt | ldi | prn | push | pop | add | sub | mul | div
  deriving DecidableEq, Repr

/-! ## The fields of an opcode byte (R61) -/

/-- Bits 7 to 6: the number of operand bytes that follow; 3 is reserved (R61, R68). -/
def operandCountField (b : Byte) : Nat := (b.extractLsb 7 6).toNat

/-- Bit 5: the ALU flag (R61). -/
def isAluField (b : Byte) : Bool := b.getLsbD 5

/-- Bits 4 to 0: the opcode identity (R61). -/
def identityField (b : Byte) : Nat := (b.extractLsb 4 0).toNat

/-- The byte with the given three fields: `operand_count * 64 + is_alu * 32 + id` (R72). -/
def reencode (operandCount : Nat) (isAlu : Bool) (identity : Nat) : Byte :=
  BitVec.ofNat 8 (operandCount * 64 + isAlu.toNat * 32 + identity)

/-! ## The decoder -/

/-- Why a byte is no instruction (R67). -/
inductive Illegal where
  /-- bit 5 set and no row of the table -/
  | unsupportedOperation (byte : Byte)
  /-- bit 5 clear and no row of the table -/
  | unrecognizedOpcode (byte : Byte)
  deriving DecidableEq, Repr

/-- The verdict on a legal byte: the contract of R65. -/
structure Decoded where
  opcode       : Opcode
  operandCount : Nat
  isAlu        : Bool
  deriving DecidableEq, Repr

/-- The nine patterns, compared with the whole byte (R65). -/
def selectOpcode (b : Byte) : Option Opcode :=
  match b with
  | 0x01 => some .hlt
  | 0x82 => some .ldi
  | 0x47 => some .prn
  | 0x45 => some .push
  | 0x46 => some .pop
  | 0xA0 => some .add
  | 0xA1 => some .sub
  | 0xA2 => some .mul
  | 0xA3 => some .div
  | _ => none

/-- The kind of an illegal byte depends on bit 5 alone (R67). -/
def illegalKind (b : Byte) : Illegal :=
  if isAluField b then .unsupportedOperation b else .unrecognizedOpcode b

/-- `decode(raw_byte)`: a pure function of the opcode byte (R65, R83). -/
def decodeByte (b : Byte) : Except Illegal Decoded :=
  match selectOpcode b with
  | some op => .ok { opcode := op, operandCount := operandCountField b, isAlu := isAluField b }
  | none => .error (illegalKind b)

/-- The instruction an opcode makes with its operand bytes, in the order of the formats of R62; an operand byte the
format does not have is ignored. -/
def Opcode.instr (op : Opcode) (op1 op2 : Byte) : Instr :=
  match op with
  | .hlt => .hlt
  | .ldi => .ldi op1 op2
  | .prn => .prn op1
  | .push => .push op1
  | .pop => .pop op1
  | .add => .add op1 op2
  | .sub => .sub op1 op2
  | .mul => .mul op1 op2
  | .div => .div op1 op2

/-- Why a byte sequence does not begin with an instruction. -/
inductive DecodeError where
  /-- the opcode byte is illegal; no operand byte is looked at (R67) -/
  | illegal (why : Illegal)
  /-- the sequence ends before the byte at this offset from the opcode byte -/
  | missingByte (offset : Nat)
  deriving DecidableEq, Repr

/-- Decodes the instruction at the front of a byte sequence and answers the bytes after it. The length is told from
the opcode byte alone (R71); the operand bytes follow in the order of R62. -/
def decode : List Byte → Except DecodeError (Instr × List Byte)
  | [] => .error (.missingByte 0)
  | ir :: rest =>
    match decodeByte ir with
    | .error why => .error (.illegal why)
    | .ok d =>
      if rest.length < d.operandCount then .error (.missingByte (rest.length + 1))
      else .ok (d.opcode.instr (rest.getD 0 0) (rest.getD 1 0), rest.drop d.operandCount)

/-! ## The encoder, from the table of R64 and the formats of R62 -/

/-- The opcode of an instruction. -/
def Instr.opcode : Instr → Opcode
  | .hlt => .hlt
  | .ldi _ _ => .ldi
  | .prn _ => .prn
  | .push _ => .push
  | .pop _ => .pop
  | .add _ _ => .add
  | .sub _ _ => .sub
  | .mul _ _ => .mul
  | .div _ _ => .div

/-- The operand bytes of an instruction, in their order in memory (R62). -/
def Instr.operands : Instr → List Byte
  | .hlt => []
  | .ldi r v => [r, v]
  | .prn r => [r]
  | .push r => [r]
  | .pop r => [r]
  | .add a b => [a, b]
  | .sub a b => [a, b]
  | .mul a b => [a, b]
  | .div a b => [a, b]

/-- The columns `operand_count`, `is_alu` and `id` of the opcode table (R64). -/
def Opcode.fields : Opcode → Nat × Bool × Nat
  | .hlt => (0, false, 1)
  | .ldi => (2, false, 2)
  | .prn => (1, false, 7)
  | .push => (1, false, 5)
  | .pop => (1, false, 6)
  | .add => (2, true, 0)
  | .sub => (2, true, 1)
  | .mul => (2, true, 2)
  | .div => (2, true, 3)

/-- The number of operand bytes of an instruction (R64). -/
def Opcode.operandCount (op : Opcode) : Nat := op.fields.1

/-- The opcode byte, re-encoded from its three fields (R72). -/
def Opcode.byte (op : Opcode) : Byte := reencode op.fields.1 op.fields.2.1 op.fields.2.2

/-- The length of an instruction in bytes, `1 + operand_count` (R60). -/
def Instr.length (i : Instr) : Nat := 1 + i.opcode.operandCount

/-- The bytes of an instruction, the first at the lowest address (R46, R60, R62). -/
def encode (i : Instr) : List Byte := i.opcode.byte :: i.operands

/-! ## The host's view of one table word -/

/-- The three bytes from an instruction's opcode byte on: bits 7 to 0 of the word first (R60); bits from `nbits` on
are 0. Three is the longest instruction's length. -/
def tableWordBytes (nbits w : Nat) : List Byte :=
  let v := w % 2 ^ nbits
  [BitVec.ofNat 8 v, BitVec.ofNat 8 (v / 256), BitVec.ofNat 8 (v / 65536)]

/-- The instruction the decoder reads from a table word. -/
def decodeTableWord (nbits w : Nat) : Option Instr :=
  match decode (tableWordBytes nbits w) with
  | .ok (i, _) => some i
  | .error _ => none

end Sys2Proof
end

