-- ==== Sys2Proof/Machine/Reference.lean ====
section
/-! DEFINITION. The values the ONE fixed reset state takes for the two open parameters. They are the reference values
of the spec's own examples (spec/00_scope.md R6), no statement of the source; every claim holds for every value of
both (assumption log 1 and 2). -/

namespace Sys2Proof.Machine

/-- `REG_WIDTH = 64` and `SP_INIT = 244`. DESIGN CHOICE, unsafe (log 1, log 2). -/
def referenceConfig : Config := { width := .tenPlus 54, spInit := 244 }

end Sys2Proof.Machine
end

