-- ==== Sys2Proof/Machine/State.lean ====
section
/-! DEFINITION. The whole state of the machine (spec/10_state.md R20), why a cycle can fail, and reset (R37). -/

namespace Sys2Proof.Machine

/-- The five kinds of fatal error the fault latch can hold (R32, R140). -/
inductive FaultKind where
  | outOfBounds | invalidRegister | unsupportedOperation | divideByZero | unrecognizedOpcode
  deriving DecidableEq, Repr

/-- A fatal error as the cycle raises it, `<Kind>(info)` (R17). The machine TAKES it: the cycle's next state is the
state before it with the latch set (R150), so a step never ends in an outcome `fault`; the info is not latched
(R148). -/
inductive Fault where
  /-- raised by a memory access at an address outside [0, 255]: the fetch, an operand read, PUSH, POP (R141); taken,
  so safe -/
  | outOfBounds (address : Int)
  /-- raised by every instruction with a register operand above 7 (R142); taken, so safe -/
  | invalidRegister (index : Byte)
  /-- raised by the decoder on an illegal byte with bit 5 set (R143); taken, so safe -/
  | unsupportedOperation (byte : Byte)
  /-- raised by DIV with a zero divisor (R144); taken, so safe -/
  | divideByZero
  /-- raised by the decoder on an illegal byte with bit 5 clear (R145); taken, so safe -/
  | unrecognizedOpcode (byte : Byte)
  deriving DecidableEq, Repr

/-- Why the model gives an instruction no meaning. Every instruction of this machine has one. -/
inductive Refusal where
  /-- raised by no arm of `exec`: it stands for an instruction without a meaning; safe -/
  | notModelled (mnemonic : String)
  deriving DecidableEq, Repr

/-- Memory as (address, byte) pairs: addresses strictly rising, no entry equal to what an unlisted address reads as.
The form is `Memory.wf` (Machine/Ops.lean). -/
abbrev Memory := List Host.Cell

/-- The register file: eight integer registers (R21). -/
abbrev RegFile := Vector Int 8

/-- The state record (R20). The instruction register outlives no cycle and is no field (R30; log 7). -/
structure State where
  /-- the memory array (R40) -/
  mem     : Memory
  /-- registers x[0] to x[7]; x[7] is the stack pointer (R21, R24) -/
  regs    : RegFile
  /-- the program counter: the address of the next opcode byte; it does not wrap (R27, R29) -/
  pc      : Nat
  /-- the running flag (R31) -/
  running : Bool
  /-- the fault latch (R32) -/
  fault   : Option FaultKind
  /-- the output stream, oldest first (R33) -/
  out     : List Int
  /-- THE MODEL'S OWN FIELD: the open parameters of this machine, written by nothing (R38; log 1) -/
  config  : Config
  deriving DecidableEq, Repr

/-- The register file after reset: zero but for register 7, which holds `SP_INIT` (R37). -/
def RegFile.reset (c : Config) : RegFile :=
  (Vector.replicate 8 (0 : Int)).set 7 (c.spInit.toNat : Int)

/-- The state after reset of a machine with the given parameters (R37, R170). -/
def State.resetWith (c : Config) : State :=
  { mem := [], regs := RegFile.reset c, pc := 0, running := true, fault := none, out := [], config := c }

/-- The state after reset of the reference machine (log 1 and 2). -/
def State.reset : State := State.resetWith referenceConfig

end Sys2Proof.Machine
end

