-- ==== Sys2Proof/Machine/Ops.lean ====
section
/-! DEFINITION. The named operations over memory and registers, and what ends a cycle: taking a fatal error, or the
advance of the program counter. There is no return from an error on this hardware (spec/60_exceptions.md R151). -/

namespace Sys2Proof.Machine

/-! ## Memory (spec/20_memory.md) -/

/-- What a cell that nothing has written reads as: memory is zero-initialized (R37, R55). -/
def Memory.unlisted : Byte := 0

/-- The content of a cell. -/
def Memory.peek : Memory → Nat → Byte
  | [], _ => Memory.unlisted
  | (c, v) :: m, a => if c = a then v else Memory.peek m a

/-- Sets one cell, keeping the canonical form. -/
def Memory.poke : Memory → Nat → Byte → Memory
  | [], a, b => if b = Memory.unlisted then [] else [(a, b)]
  | (c, v) :: m, a, b =>
    if a < c then (if b = Memory.unlisted then (c, v) :: m else (a, b) :: (c, v) :: m)
    else if a = c then (if b = Memory.unlisted then m else (a, b) :: m)
    else (c, v) :: Memory.poke m a b

/-- The canonical form: addresses strictly rising and below the size of memory, no entry equal to what an unlisted
address reads as. -/
def Memory.wf : Memory → Bool
  | [] => true
  | (a, b) :: m =>
    decide (a < 256) && decide (b ≠ Memory.unlisted) && m.all (fun c => decide (a < c.1)) && Memory.wf m

/-- Address translation (R43): the identity with a bounds check; an integer outside [0, 255] names no cell. -/
def translate (a : Int) : Except Fault Nat :=
  if 0 ≤ a ∧ a < 256 then .ok a.toNat else .error (.outOfBounds a)

/-- `MemRead(addr, 1)` (R41). -/
def memRead (m : Memory) (a : Int) : Except Fault Byte := do
  let cell ← translate a
  return m.peek cell

/-- `MemWrite(addr, 1, b)` (R42). -/
def memWrite (m : Memory) (a : Int) (b : Byte) : Except Fault Memory := do
  let cell ← translate a
  return m.poke cell b

/-! ## Registers (spec/10_state.md) -/

/-- The register a whole operand byte names; an index above 7 raises InvalidRegister (R22). -/
def regIndex (r : Byte) : Except Fault (Fin 8) :=
  if h : r.toNat < 8 then .ok ⟨r.toNat, h⟩ else .error (.invalidRegister r)

/-- `x[i]` (R17). -/
def State.reg (s : State) (i : Fin 8) : Int := s.regs[i]

/-- `x[i] <- v` (R17). -/
def State.setReg (s : State) (i : Fin 8) (v : Int) : State := { s with regs := s.regs.set i v }

/-- The state with another memory. -/
def State.setMem (s : State) (m : Memory) : State := { s with mem := m }

/-- The Register File's `get(index)` (R22). -/
def regGet (s : State) (index : Byte) : Except Fault Int := do
  let i ← regIndex index
  return s.reg i

/-- The Register File's `set(index, value)` (R22). -/
def regSet (s : State) (index : Byte) (v : Int) : Except Fault State := do
  let i ← regIndex index
  return s.setReg i v

/-! ## The end of a cycle -/

/-- The advance of the program counter by `1 + operand_count`, not reduced (R28, R29, R85). -/
def State.advance (s : State) (op : Opcode) : State := { s with pc := s.pc + 1 + op.operandCount }

/-- The kind of a fatal error, all of it that is latched (R148). -/
def Fault.kind : Fault → FaultKind
  | .outOfBounds _ => .outOfBounds
  | .invalidRegister _ => .invalidRegister
  | .unsupportedOperation _ => .unsupportedOperation
  | .divideByZero => .divideByZero
  | .unrecognizedOpcode _ => .unrecognizedOpcode

/-- TAKING A FATAL ERROR (R150): the latch takes the kind and every other element keeps the value it had before the
cycle. Control goes nowhere, nothing is saved, and no step is enabled after it. -/
def State.takeFault (s : State) (f : Fault) : State := { s with fault := some f.kind }

/-- A cycle is all or nothing (R87): it completes with the state its work made, or it takes the error in the state
`s` from before the cycle, every write discarded. -/
def settle (s : State) (work : Except Fault State) : Host.Outcome State Fault Refusal :=
  match work with
  | .ok t => .next t
  | .error f => .next (s.takeFault f)

end Sys2Proof.Machine
end

