-- ==== Sys2Proof/Machine/Operands.lean ====
section
/-! DEFINITION. The operand forms (spec/30_encoding.md R62, R63). A register operand is `regGet`, `regSet` or `regIndex`
of its byte (Machine/Ops.lean); the one immediate, LDI's, is its byte zero-extended (`zextW`); here stand the pair of
registers of the ALU and the stack's address. -/

namespace Sys2Proof.Machine

/-- The register indices of a format RR instruction, the first operand checked first (R121). -/
def regPair (a b : Byte) : Except Fault (Fin 8 × Fin 8) := do
  let i ← regIndex a
  let j ← regIndex b
  return (i, j)

/-- `wrapW` at this machine's register width (R16). -/
def State.wrap (s : State) (v : Int) : Int := wrapW s.config.width v

/-- The address PUSH stores to, register 7's value after the decrement (R110). -/
def pushAddress (s : State) : Int := s.wrap (s.reg 7 - 1)

/-- The address POP loads from, register 7's value before the increment (R111). -/
def popAddress (s : State) : Int := s.reg 7

end Sys2Proof.Machine
end

