-- ==== Sys2Proof/Machine/Alu.lean ====
section
/-! DEFINITION. The ALU (spec/43_alu.md R120) and ADD, SUB, MUL, DIV (R121 to R127). -/

namespace Sys2Proof.Machine

/-- The four operations of the ALU (R120). The decoder invokes it with no other (R129). -/
inductive AluOp where
  | add | sub | mul | div
  deriving DecidableEq, Repr

/-- The exact integer result of an operation on two register values (R126); a zero divisor is checked explicitly and
raises DivideByZero (R125, R144). The quotient is rounded toward zero (R127). -/
def aluResult : AluOp → Int → Int → Except Fault Int
  | .add, x, y => .ok (x + y)
  | .sub, x, y => .ok (x - y)
  | .mul, x, y => .ok (x * y)
  | .div, x, y => if y = 0 then .error .divideByZero else .ok (tdiv x y)

/-- `apply(operation, dest_register, src_register)` (R120): both sources are read before the destination is written
(R128); the exact result is brought into the register range (R126). -/
def aluApply (op : AluOp) (a b : Byte) (s : State) : Except Fault State := do
  let (i, j) ← regPair a b
  let v ← aluResult op (s.reg i) (s.reg j)
  return s.setReg i (s.wrap v)

/-- ADD a, b (R122): `x[a] <- wrapW(x[a] + x[b])`. -/
def execAdd (a b : Byte) (s : State) : Host.Outcome State Fault Refusal :=
  settle s do
    let s₁ ← aluApply .add a b s
    return s₁.advance .add

/-- SUB a, b (R123): `x[a] <- wrapW(x[a] - x[b])`. -/
def execSub (a b : Byte) (s : State) : Host.Outcome State Fault Refusal :=
  settle s do
    let s₁ ← aluApply .sub a b s
    return s₁.advance .sub

/-- MUL a, b (R124): `x[a] <- wrapW(x[a] * x[b])`. -/
def execMul (a b : Byte) (s : State) : Host.Outcome State Fault Refusal :=
  settle s do
    let s₁ ← aluApply .mul a b s
    return s₁.advance .mul

/-- DIV a, b (R125): DivideByZero if `x[b] = 0`, else `x[a] <- wrapW(tdiv(x[a], x[b]))`. -/
def execDiv (a b : Byte) (s : State) : Host.Outcome State Fault Refusal :=
  settle s do
    let s₁ ← aluApply .div a b s
    return s₁.advance .div

end Sys2Proof.Machine
end

