-- ==== Sys2Proof/Machine/Flags.lean ====
section
/-! DEFINITION. The machine has no condition flags (spec/10_state.md R34). Its control and status state is the running
flag and the fault latch (R31, R32); here stand what writes and what reads them. -/

namespace Sys2Proof.Machine

/-- `running <- false` (R86): the only write of the flag during a run (R31). -/
def State.halt (s : State) : State := { s with running := false }

/-- A step is enabled exactly when the machine is running and the latch is empty (R81). -/
def State.enabled (s : State) : Bool := s.running && s.fault.isNone

/-- What the status interface shows (R13). -/
inductive Status where
  | running
  | halted
  | faulted (kind : FaultKind)
  deriving DecidableEq, Repr

/-- The status interface (R13, R9): a full latch shows its kind, else the running flag decides. -/
def State.status (s : State) : Status :=
  match s.fault with
  | some k => .faulted k
  | none => if s.running then .running else .halted

/-- The codes of the fault latch; 0 is the empty latch (R147). -/
def faultCode : Option FaultKind → Nat
  | none => 0
  | some .outOfBounds => 1
  | some .invalidRegister => 2
  | some .unsupportedOperation => 3
  | some .divideByZero => 4
  | some .unrecognizedOpcode => 5

end Sys2Proof.Machine
end

