-- ==== Sys2Proof/Machine/Control.lean ====
section
/-! DEFINITION. HLT (spec/40_cycle_and_hlt.md R89). -/

namespace Sys2Proof.Machine

/-- HLT (R89): the program counter advances like any other instruction's, then the running flag is cleared (R86). It
raises nothing of its own. -/
def execHlt (s : State) : Host.Outcome State Fault Refusal :=
  .next (s.advance .hlt).halt

end Sys2Proof.Machine
end

