-- ==== Sys2Proof/Machine/LoadPrint.lean ====
section
/-! DEFINITION. LDI and PRN (spec/41_ldi_prn.md R100, R101). -/

namespace Sys2Proof.Machine

/-- LDI r, v (R100): the register takes the immediate byte, zero-extended. -/
def execLdi (r v : Byte) (s : State) : Host.Outcome State Fault Refusal :=
  settle s do
    let s₁ ← regSet s r (zextW v)
    return s₁.advance .ldi

/-- `out <- out ++ [v]` (R33). -/
def State.emit (s : State) (v : Int) : State := { s with out := s.out ++ [v] }

/-- PRN r (R101): the whole register value goes to the output stream. -/
def execPrn (r : Byte) (s : State) : Host.Outcome State Fault Refusal :=
  settle s do
    let v ← regGet s r
    return (s.emit v).advance .prn

end Sys2Proof.Machine
end

