-- ==== Sys2Proof/Machine/Stack.lean ====
section
/-! DEFINITION. PUSH and POP (spec/42_stack.md R110, R111). The order of the checks is that of spec/60_exceptions.md
R149: the register index, then the stack address. -/

namespace Sys2Proof.Machine

/-- PUSH r (R110): register 7 is decremented first; the value stored is the low byte of `x[r]` READ AFTER the
decrement, so PUSH R7 stores the decremented stack pointer (R113). An address outside memory raises OutOfBounds and
register 7 keeps its value (R87, R115). -/
def execPush (r : Byte) (s : State) : Host.Outcome State Fault Refusal :=
  settle s do
    let i ← regIndex r
    let a := pushAddress s
    let s₁ := s.setReg 7 a
    let mem' ← memWrite s₁.mem a (low8 (s₁.reg i))
    return (s₁.setMem mem').advance .push

/-- POP r (R111): the byte at register 7 goes to the register, zero-extended; then register 7, READ AFTER that write,
is incremented, so POP R7 leaves the byte plus one (R114). Memory keeps the popped cell. -/
def execPop (r : Byte) (s : State) : Host.Outcome State Fault Refusal :=
  settle s do
    let i ← regIndex r
    let b ← memRead s.mem (popAddress s)
    let s₁ := s.setReg i (zextW b)
    let s₂ := s₁.setReg 7 (s₁.wrap (s₁.reg 7 + 1))
    return s₂.advance .pop

end Sys2Proof.Machine
end

