-- ==== Sys2Proof/Machine/Fetch.lean ====
section
/-! DEFINITION. The fetch of one instruction (spec/40_cycle_and_hlt.md R82, R83; spec/30_encoding.md R63). -/

namespace Sys2Proof.Machine

/-- The fatal error an illegal byte raises (R67). -/
def illegalFault : Illegal → Fault
  | .unsupportedOperation b => .unsupportedOperation b
  | .unrecognizedOpcode b => .unrecognizedOpcode b

/-- The `n`-th operand byte, `MemRead(pc + n, 1)` (R63). A byte beyond the instruction's operand count is not read; 0
stands for it, and `Opcode.instr` ignores it. -/
def operandByte (s : State) (count n : Nat) : Except Fault Byte :=
  if n ≤ count then memRead s.mem ((s.pc + n : Nat) : Int) else .ok 0

/-- Fetch, decode, and the operand reads that open the execute step (R80): the opcode byte at `pc`; then the decoder,
whose illegal verdict ends the cycle before any operand is read (R83); then the operand bytes in address order (R149).
All of it precedes every write (R177). -/
def fetchInstr (s : State) : Except Fault Instr := do
  let ir ← memRead s.mem (s.pc : Int)
  match decodeByte ir with
  | .error why => .error (illegalFault why)
  | .ok d =>
    let op1 ← operandByte s d.operandCount 1
    let op2 ← operandByte s d.operandCount 2
    return d.opcode.instr op1 op2

/-- `bytes` written contiguously from `base` on; a byte whose address does not exist is dropped. -/
def Memory.store (m : Memory) (base : Nat) : List Byte → Memory
  | [] => m
  | b :: bs => Memory.store (if base < 256 then m.poke base b else m) (base + 1) bs

/-- `s` with an instruction's bytes placed where the next cycle fetches it, and enabled so that the cycle fetches
(R81); log 8. -/
def State.placeAtPc (s : State) (bytes : List Byte) : State :=
  { s with mem := s.mem.store s.pc bytes, running := true, fault := none }

end Sys2Proof.Machine
end

