-- ==== Sys2Proof/Machine/Step.lean ====
section
/-! DEFINITION. One step of the machine (spec/40_cycle_and_hlt.md R80, R81). -/

namespace Sys2Proof.Machine

/-- One step. When it is enabled it is one whole cycle: the fetch, then the instruction; an error of the fetch is taken
like any other (R80, R150). A Halted or Faulted machine does nothing and changes nothing (R81; log 4). -/
def step (s : State) : Host.Outcome State Fault Refusal :=
  if s.enabled then
    match fetchInstr s with
    | .ok i => exec i s
    | .error f => .next (s.takeFault f)
  else .next s

/-- `s` with the instruction of a table word stored where the next step fetches it (log 8). -/
def State.withFetchWord (s : State) (nbits w : Nat) : State := s.placeAtPc (tableWordBytes nbits w)

end Sys2Proof.Machine
end

