-- ==== Sys2Proof/Machine/Loader.lean ====
section
/-! DEFINITION. What the host does to the machine when no cycle runs: reset and loading (spec/70_reset_and_hazards.md
R170 to R173, R175). These are no steps of the machine (log 9). -/

namespace Sys2Proof.Machine

/-- IF-RESET (R14, R170): the whole state is created anew, memory included, from a machine in any state. -/
def State.hostReset (s : State) : State := State.resetWith s.config

/-- IF-LOAD (R11, R172): byte `i` of the image goes to address `i`; nothing else is touched and the bytes are not
checked. An image longer than memory cannot be loaded (R173). -/
def load (image : List Byte) (s : State) : Option State :=
  if image.length ≤ 256 then some { s with mem := s.mem.store 0 image } else none

/-- The launch state of an image: reset, then the load (R171). -/
def launch (c : Config) (image : List Byte) : Option State := load image (State.resetWith c)

end Sys2Proof.Machine
end

