-- ==== Sys2Proof/WellFormed.lean ====
section
/-! DEFINITION. Which instructions the register file accepts: every register operand is an index in [0, 7]
(spec/10_state.md R22). The decoder does not ask this (spec/30_encoding.md R63): an ill-formed instruction decodes, and
raises InvalidRegister when it executes (assumption log 15). -/

namespace Sys2Proof

/-- An operand byte that names a register (R22). -/
def validReg (r : Byte) : Bool := decide (r.toNat < 8)

/-- Every register operand names a register. The immediate of LDI is no register index and may be any byte (R142). -/
def Instr.wellFormed : Instr → Bool
  | .hlt => true
  | .ldi r _ => validReg r
  | .prn r => validReg r
  | .push r => validReg r
  | .pop r => validReg r
  | .add a b => validReg a && validReg b
  | .sub a b => validReg a && validReg b
  | .mul a b => validReg a && validReg b
  | .div a b => validReg a && validReg b

end Sys2Proof
end

