-- ==== Sys2Proof/Safety.lean ====
section
/-! DEFINITION. The terms in which claims about a run are made: how a run ends (spec/00_scope.md R9), and the invariant
that rules out the states no run reaches. -/

namespace Sys2Proof.Machine

/-- The run has ended by an HLT (R9 a). -/
def State.Halted (s : State) : Prop := s.running = false ∧ s.fault = none

/-- The run has ended by a fatal error of some kind (R9 b). -/
def State.Faulted (s : State) : Prop := s.running = true ∧ s.fault ≠ none

/-- `s` with the latch set to a kind, and nothing else changed (R150). -/
def State.latched (s : State) (k : FaultKind) : State := { s with fault := some k }

/-- Memory is canonical and holds no cell above address 255 (R40); every register and every emitted value is in the
register range (R26); the program counter is at most 256 (R27); a full latch leaves the running flag true (R32). -/
structure State.Inv (s : State) : Prop where
  mem_wf        : s.mem.wf = true
  regs_in_range : ∀ i, inRange s.config.width (s.reg i) = true
  out_in_range  : ∀ v ∈ s.out, inRange s.config.width v = true
  pc_le         : s.pc ≤ 256
  fault_running : s.fault ≠ none → s.running = true

/-- The bytes of memory from the program counter to address 255, in address order: what the decoder can be given. -/
def State.bytesAtPc (s : State) : List Byte :=
  (List.range' s.pc (256 - s.pc)).map s.mem.peek

/-- An instruction executed `n` times in a row, stopping where it answers no next state. -/
def repeatExec (i : Instr) : Nat → State → Host.Outcome State Fault Refusal
  | 0, s => .next s
  | n + 1, s =>
    match exec i s with
    | .next t => repeatExec i n t
    | .fault f => .fault f
    | .refused r => .refused r

/-- The operand byte `r` names register `j` (R63). -/
def names (r : Byte) (j : Fin 8) : Bool := r.toNat == j.val

/-- The registers an instruction reads (the table of R23). -/
def readsReg (i : Instr) (j : Fin 8) : Bool :=
  match i with
  | .hlt => false
  | .ldi _ _ => false
  | .prn r => names r j
  | .push r => names r j || j == 7
  | .pop _ => j == 7
  | .add a b => names a j || names b j
  | .sub a b => names a j || names b j
  | .mul a b => names a j || names b j
  | .div a b => names a j || names b j

/-- The registers an instruction writes (the table of R23). -/
def writesReg (i : Instr) (j : Fin 8) : Bool :=
  match i with
  | .hlt => false
  | .ldi r _ => names r j
  | .prn _ => false
  | .push _ => j == 7
  | .pop r => names r j || j == 7
  | .add a _ => names a j
  | .sub a _ => names a j
  | .mul a _ => names a j
  | .div a _ => names a j

/-- The cell an instruction stores to, if it stores (R45): PUSH alone, at the address its meaning forms. -/
def storesTo (i : Instr) (s : State) (cell : Nat) : Prop :=
  match i with
  | .push _ => translate (pushAddress s) = .ok cell
  | .hlt | .ldi _ _ | .prn _ | .pop _ | .add _ _ | .sub _ _ | .mul _ _ | .div _ _ => False

end Sys2Proof.Machine
end

