-- ==== Sys2Proof/Certificates/Slice0/Obligations.lean ====
section
/-! DEFINITION. The statements about the machine. Every one is about ALL states (or all bytes, all integers), so about
every register width and every initial stack pointer the spec admits, since a state carries them (log 1). Where a
statement needs a premise on the state it is a part of `State.Inv`, which every step keeps, or the empty latch of a
machine that runs.

A rule of spec/ that carries a decision mark is the spec's own choice (spec/92_eei_decisions.md); the docstring names the
decision, and the statement's basis is 'derived'. -/

open Sys2Proof Sys2Proof.Machine

/-! ## Encoding -/

/-- R66, R72: the nine rows of the opcode table (R64), written out bit by bit, decode with their operand counts and ALU
flags; two pairs of rows share an identity; each row's byte is re-encoded from its three fields. -/
def Obligations.OpcodeTableDecodes : Prop :=
  decodeByte 0b00000001 = .ok ⟨.hlt, 0, false⟩ ∧
  decodeByte 0b10000010 = .ok ⟨.ldi, 2, false⟩ ∧
  decodeByte 0b01000111 = .ok ⟨.prn, 1, false⟩ ∧
  decodeByte 0b01000101 = .ok ⟨.push, 1, false⟩ ∧
  decodeByte 0b01000110 = .ok ⟨.pop, 1, false⟩ ∧
  decodeByte 0b10100000 = .ok ⟨.add, 2, true⟩ ∧
  decodeByte 0b10100001 = .ok ⟨.sub, 2, true⟩ ∧
  decodeByte 0b10100010 = .ok ⟨.mul, 2, true⟩ ∧
  decodeByte 0b10100011 = .ok ⟨.div, 2, true⟩ ∧
  identityField 0b00000001 = 1 ∧ identityField 0b10100001 = 1 ∧
  identityField 0b10000010 = 2 ∧ identityField 0b10100010 = 2 ∧
  ∀ b ∈ ([0x01, 0x82, 0x47, 0x45, 0x46, 0xA0, 0xA1, 0xA2, 0xA3] : List Byte),
    (decodeByte b).map (fun d => reencode d.operandCount d.isAlu (identityField b)) = .ok b

/-- R143, R145: the decoder raises UnsupportedOperation, recording the byte, exactly on a byte with
bit 5 set that is none of the four ALU bytes, and UnrecognizedOpcode exactly on one with bit 5 clear that is none of the
five other table bytes; 124 bytes cause the one, 123 the other, 0 among them; a cycle that fetches such a byte ends in
that fatal error, and no instruction raises either. -/
def Obligations.IllegalByteKinds : Prop :=
  (∀ b c : Byte, decodeByte b = .error (.unsupportedOperation c) ↔
    c = b ∧ b.getLsbD 5 = true ∧ b ∉ ([0xA0, 0xA1, 0xA2, 0xA3] : List Byte)) ∧
  (∀ b c : Byte, decodeByte b = .error (.unrecognizedOpcode c) ↔
    c = b ∧ b.getLsbD 5 = false ∧ b ∉ ([0x01, 0x82, 0x47, 0x45, 0x46] : List Byte)) ∧
  decodeByte 0x00 = .error (.unrecognizedOpcode 0x00) ∧
  (List.range 256).countP (fun n => (BitVec.ofNat 8 n).getLsbD 5 &&
    decide (BitVec.ofNat 8 n ∉ ([0xA0, 0xA1, 0xA2, 0xA3] : List Byte))) = 124 ∧
  (List.range 256).countP (fun n => !(BitVec.ofNat 8 n).getLsbD 5 &&
    decide (BitVec.ofNat 8 n ∉ ([0x01, 0x82, 0x47, 0x45, 0x46] : List Byte))) = 123 ∧
  (∀ s : State, s.enabled = true → s.pc ≤ 255 → ∀ c,
    (decodeByte (s.mem.peek s.pc) = .error (.unsupportedOperation c) →
      ∃ t, step s = .next t ∧ t.fault = some .unsupportedOperation) ∧
    (decodeByte (s.mem.peek s.pc) = .error (.unrecognizedOpcode c) →
      ∃ t, step s = .next t ∧ t.fault = some .unrecognizedOpcode)) ∧
  ∀ (i : Instr) (s t : State), s.fault = none → exec i s = .next t →
    t.fault ≠ some .unsupportedOperation ∧ t.fault ≠ some .unrecognizedOpcode

/-- R62, R71 with decision D6: a byte sequence decodes to an instruction exactly when it begins with that instruction's
encoding, for every instruction and every operand byte; the bytes after it are left over. -/
def Obligations.DecodeEncodeAgree : Prop :=
  ∀ (bytes : List Byte) (i : Instr) (rest : List Byte),
    decode bytes = .ok (i, rest) ↔ bytes = encode i ++ rest

/-! ## The step -/

/-- R80: when the bytes at the program counter decode to an instruction, the step of an enabled machine is that
instruction's meaning in that state, the advance of the program counter included. -/
def Obligations.StepRunsDecodedInstruction : Prop :=
  ∀ (s : State) (i : Instr) (rest : List Byte),
    s.enabled = true → decode s.bytesAtPc = .ok (i, rest) → step s = exec i s

/-- R149 with decisions D7, D10: the errors of the fetch, in order. An illegal byte is reported whatever follows it; a
missing opcode or operand byte is OutOfBounds. The error is taken: the latch is set and nothing else changes (D9). -/
def Obligations.StepTakesErrorOfFetch : Prop :=
  ∀ s : State, s.enabled = true →
    (∀ b, decode s.bytesAtPc = .error (.illegal (.unsupportedOperation b)) →
      step s = .next (s.latched .unsupportedOperation)) ∧
    (∀ b, decode s.bytesAtPc = .error (.illegal (.unrecognizedOpcode b)) →
      step s = .next (s.latched .unrecognizedOpcode)) ∧
    (∀ n, decode s.bytesAtPc = .error (.missingByte n) → step s = .next (s.latched .outOfBounds))

/-- R87, R88, R150 with decision D9: the step of an enabled machine always answers a next state. Either it takes an
error, and then nothing but the latch differs from the state before the cycle; or it completes the instruction at the
program counter, the latch stays empty, and the program counter is advanced by one plus the operand count of the opcode
byte (R85). -/
def Obligations.CycleAllOrNothing : Prop :=
  ∀ s : State, s.enabled = true → ∃ t, step s = .next t ∧
    ((∃ k, t = s.latched k) ∨
      (t.fault = none ∧ t.pc = s.pc + 1 + operandCountField (s.mem.peek s.pc) ∧
        ∃ i rest, decode s.bytesAtPc = .ok (i, rest) ∧ exec i s = .next t))

/-- R87, R150 with decision D9, for each instruction: its meaning always answers a next state. Either it takes an error,
and then nothing but the latch differs from the state before; or it completes, the latch is as it was, and the program
counter is advanced by the instruction's length (R28, R60). -/
def Obligations.ExecAllOrNothing : Prop :=
  ∀ (i : Instr) (s : State), ∃ t, exec i s = .next t ∧
    ((∃ k, t = s.latched k) ∨ (t.fault = s.fault ∧ t.pc = s.pc + i.length))

/-- R151, R81: a machine that is not enabled, Faulted or Halted, is left as it is by any number of steps; only a reset
leaves that state, and it discards the whole of it (R170, decision D16). -/
def Obligations.StoppedStaysStopped : Prop :=
  ∀ (s : State) (n : Nat), s.enabled = false →
    Sys2Proof.core.run n s = .next s ∧ s.hostReset = State.resetWith s.config ∧ s.hostReset.enabled = true

/-- R9, R90: every run ends. After at most 256 cycles the machine is Halted or Faulted, or the next cycle faults. A state
is an end state, Halted or Faulted, exactly when no step is enabled. That a fetch above address 255 faults is decision
D5. -/
def Obligations.EveryRunEnds : Prop :=
  ∀ s : State, s.Inv → (s.enabled = false ↔ s.Halted ∨ s.Faulted) ∧ ∃ n ≤ 256, ∃ t, Sys2Proof.core.run n s = .next t ∧
    (t.Halted ∨ t.Faulted ∨ ∃ u, step t = .next u ∧ u.Faulted ∧ ∃ k, u = t.latched k)

/-- R90 (b): the program counter only rises while the machine runs, so no address is executed twice. -/
def Obligations.NoAddressExecutedTwice : Prop :=
  ∀ (s t u : State) (m n : Nat), m < n → Sys2Proof.core.run m s = .next t → Sys2Proof.core.run n s = .next u →
    t.enabled = true → u.enabled = true → t.pc < u.pc

/-! ## The invariant -/

/-- R26, R27, R32, R40: every step keeps memory canonical, every register and every emitted value in the register range,
the program counter at most 256, and the running flag true under a full latch. That memory is kept canonical is the
model's own convention (log 6); the register range is decision D1. -/
def Obligations.StepKeepsInvariant : Prop :=
  ∀ s t : State, s.Inv → step s = .next t → t.Inv

/-- The state after reset meets the invariant, whatever the two parameters. -/
def Obligations.ResetMeetsInvariant : Prop :=
  ∀ c : Config, (State.resetWith c).Inv

/-- R171, R173: the launch state of every image that fits memory meets the invariant, and an image that does not fit
cannot be launched (decision D17). -/
def Obligations.LaunchMeetsInvariant : Prop :=
  ∀ (c : Config) (image : List Byte),
    (image.length ≤ 256 → ∃ s, launch c image = some s ∧ s.Inv) ∧ (256 < image.length → launch c image = none)

/-! ## HLT, LDI, PRN -/

/-- R89: HLT is the byte 00000001; it always completes, advances the program counter by one and clears the running flag;
nothing else changes, and no step is enabled after it. A cycle that fetches its byte is exactly that; only the fetch of
the byte can raise, OutOfBounds when the program counter is above 255. -/
def Obligations.HltHalts : Prop :=
  ∀ s : State, encode .hlt = [0b00000001] ∧
    exec .hlt s = .next { s with pc := s.pc + 1, running := false } ∧
    (∀ t, exec .hlt s = .next t → t.enabled = false) ∧
    (s.enabled = true → s.pc ≤ 255 → s.mem.peek s.pc = 0b00000001 →
      step s = .next { s with pc := s.pc + 1, running := false }) ∧
    (255 < s.pc → fetchInstr s = .error (.outOfBounds s.pc))

/-- R100 (its effect): LDI completes for every register and every immediate. The register takes the integer the byte
holds, in [0, 255], never sign-extended; the program counter advances by three; nothing else changes. -/
def Obligations.LdiLoadsImmediate : Prop :=
  ∀ (r v : Byte) (i : Fin 8) (s : State), r.toNat = i.val →
    exec (.ldi r v) s = .next { s with regs := s.regs.set i (v.toNat : Int), pc := s.pc + 3 }

/-- R101 (its effect): PRN completes for every register and appends the register's whole value to the output; the
program counter advances by two; no register and no memory cell changes. -/
def Obligations.PrnEmitsRegister : Prop :=
  ∀ (r : Byte) (i : Fin 8) (s : State), r.toNat = i.val →
    exec (.prn r) s = .next { s with out := s.out ++ [s.reg i], pc := s.pc + 2 }

/-- R102 (its general sentences): LDI followed by any number of PRN of the same register leaves the register at the
loaded value, prints exactly that value each time, and changes nothing else but the program counter. -/
def Obligations.RepeatedPrnPrintsLoadedValue : Prop :=
  ∀ (r v : Byte) (i : Fin 8) (s : State) (n : Nat), r.toNat = i.val →
    ∃ t, exec (.ldi r v) s = .next t ∧ t.reg i = (v.toNat : Int) ∧
      repeatExec (.prn r) n t =
        .next { t with out := s.out ++ List.replicate n (v.toNat : Int), pc := s.pc + 3 + 2 * n }

/-! ## PUSH, POP -/

/-- R110, R113 with decisions D8, D15: PUSH completes when the decremented stack pointer `a` is an address. Register 7
becomes `a`; the cell at `a` takes the low byte of the operand register, read after the decrement; every other cell and
every other part of the state is unchanged; the program counter advances by two. -/
def Obligations.PushStores : Prop :=
  ∀ (r : Byte) (i : Fin 8) (s : State) (a : Int), r.toNat = i.val → s.mem.wf = true →
    a = wrapW s.config.width (s.reg 7 - 1) → 0 ≤ a → a ≤ 255 →
    ∃ m, exec (.push r) s = .next { s with mem := m, regs := s.regs.set 7 a, pc := s.pc + 2 } ∧
      ∀ c : Nat, m.peek c =
        if (c : Int) = a then BitVec.ofInt 8 (if i = 7 then a else s.reg i) else s.mem.peek c

/-- R110, R115 with decisions D9, D10: PUSH takes InvalidRegister on an index above 7, whatever the stack pointer, and
OutOfBounds when the decremented stack pointer is no address, which for a register in range is when it was at most 0 or
at least 257. Register 7 then keeps its value: nothing but the latch changes. -/
def Obligations.PushTraps : Prop :=
  ∀ (r : Byte) (s : State),
    (8 ≤ r.toNat → exec (.push r) s = .next (s.latched .invalidRegister)) ∧
    (r.toNat ≤ 7 → ¬ (0 ≤ pushAddress s ∧ pushAddress s ≤ 255) →
      exec (.push r) s = .next (s.latched .outOfBounds)) ∧
    (inRange s.config.width (s.reg 7) = true →
      (¬ (0 ≤ pushAddress s ∧ pushAddress s ≤ 255) ↔ s.reg 7 ≤ 0 ∨ 257 ≤ s.reg 7))

/-- R111, R114 with decision D15: POP completes when register 7 is an address. The operand register takes the byte
there, zero-extended, and register 7 is incremented; POP R7 leaves the byte plus one. Memory and every other part of the
state are unchanged; the program counter advances by two. -/
def Obligations.PopLoads : Prop :=
  ∀ (r : Byte) (i : Fin 8) (s : State) (a : Nat), r.toNat = i.val → s.reg 7 = (a : Int) → a ≤ 255 →
    exec (.pop r) s = .next { s with
      regs := if i = 7 then s.regs.set 7 (((s.mem.peek a).toNat : Int) + 1)
        else (s.regs.set i ((s.mem.peek a).toNat : Int)).set 7 ((a : Int) + 1)
      pc := s.pc + 2 }

/-- R111, R115 with decisions D9, D10: POP takes InvalidRegister on an index above 7, whatever the stack pointer, and
OutOfBounds when register 7 is no address; nothing but the latch changes. -/
def Obligations.PopTraps : Prop :=
  ∀ (r : Byte) (s : State),
    (8 ≤ r.toNat → exec (.pop r) s = .next (s.latched .invalidRegister)) ∧
    (r.toNat ≤ 7 → ¬ (0 ≤ s.reg 7 ∧ s.reg 7 ≤ 255) → exec (.pop r) s = .next (s.latched .outOfBounds))

/-- R116 with decisions D8, D15: PUSH then POP at once, for every pair of registers and a stack pointer in [1, 256]. A
value in [0, 255] comes back in the POP's register and register 7 is restored when neither operand is register 7; a wider
value comes back as its low byte; with register 7 as an operand the results are those of the rule's table. The cell keeps
the byte that was pushed. -/
def Obligations.PushPopRoundTrip : Prop :=
  ∀ (r r' : Byte) (i i' : Fin 8) (s : State), r.toNat = i.val → r'.toNat = i'.val → s.mem.wf = true →
    1 ≤ s.reg 7 → s.reg 7 ≤ 256 →
    ∃ t u, exec (.push r) s = .next t ∧ exec (.pop r') t = .next u ∧
      (((u.mem.peek (s.reg 7 - 1).toNat).toNat : Int) = if i = 7 then s.reg 7 - 1 else s.reg i % 256) ∧
      (i ≠ 7 → i' ≠ 7 → u.reg 7 = s.reg 7 ∧ u.reg i' = s.reg i % 256 ∧
        (0 ≤ s.reg i → s.reg i ≤ 255 → u.reg i' = s.reg i)) ∧
      (i = 7 → i' ≠ 7 → u.reg 7 = s.reg 7 ∧ u.reg i' = s.reg 7 - 1) ∧
      (i ≠ 7 → i' = 7 → u.reg 7 = s.reg i % 256 + 1) ∧
      (i = 7 → i' = 7 → u.reg 7 = s.reg 7)

/-- R53, R176: a byte that PUSH stores at the next program counter or after it is the byte the next cycle is given there,
opcode and operand bytes alike. -/
def Obligations.StoreSeenByNextFetch : Prop :=
  ∀ (r : Byte) (i : Fin 8) (s t : State) (n : Nat), r.toNat = i.val → s.mem.wf = true → s.fault = none →
    exec (.push r) s = .next t → t.fault = none → pushAddress s = ((t.pc + n : Nat) : Int) →
    t.bytesAtPc[n]? = some (BitVec.ofInt 8 (if i = 7 then pushAddress s else s.reg i))

/-! ## The ALU -/

/-- R122, R123, R124, R128 with decision D2: ADD, SUB and MUL complete for every pair of registers, the same one twice
included. The first register takes the exact result of both old values, wrapped at the register width; the program
counter advances by three; nothing else changes. -/
def Obligations.AddSubMulWrapExactResult : Prop :=
  ∀ (a b : Byte) (i j : Fin 8) (s : State), a.toNat = i.val → b.toNat = j.val →
    exec (.add a b) s = .next { s with
      regs := s.regs.set i (wrapW s.config.width (s.reg i + s.reg j)), pc := s.pc + 3 } ∧
    exec (.sub a b) s = .next { s with
      regs := s.regs.set i (wrapW s.config.width (s.reg i - s.reg j)), pc := s.pc + 3 } ∧
    exec (.mul a b) s = .next { s with
      regs := s.regs.set i (wrapW s.config.width (s.reg i * s.reg j)), pc := s.pc + 3 }

/-- R125, R128 with decisions D2, D4: DIV completes for every pair of registers whose second value is not 0. The first
register takes the quotient rounded toward zero, wrapped at the register width; the program counter advances by three;
nothing else changes. -/
def Obligations.DivTruncates : Prop :=
  ∀ (a b : Byte) (i j : Fin 8) (s : State), a.toNat = i.val → b.toNat = j.val → s.reg j ≠ 0 →
    exec (.div a b) s = .next { s with
      regs := s.regs.set i (wrapW s.config.width ((s.reg i).tdiv (s.reg j))), pc := s.pc + 3 }

/-- R127 with decision D4: the quotient of any two values with a divisor other than 0, its remainder smaller than the
divisor and zero or of the dividend's sign; and at each finite width the one quotient that leaves the register range, the
least value by -1, wraps to the least value. -/
def Obligations.QuotientHasRemainderOfDividendSign : Prop :=
  (∀ x y : Int, y ≠ 0 → ∃ q rem, aluResult .div x y = .ok q ∧ x = q * y + rem ∧ rem.natAbs < y.natAbs ∧
    (rem = 0 ∨ rem.sign = x.sign)) ∧
  ∀ k : Nat, (aluResult .div (-2 ^ (9 + k)) (-1)).map (wrapW (.tenPlus k)) = .ok (-2 ^ (9 + k))

/-- R16, R126 with decisions D1, D2: at a finite width the wrapped value is the one integer of the register range that is
congruent to the exact one; with unbounded registers nothing is wrapped. -/
def Obligations.WrapIsUniqueRepresentative : Prop :=
  ∀ v : Int, wrapW .unbounded v = v ∧ ∀ k : Nat,
    (-2 ^ (9 + k) ≤ wrapW (.tenPlus k) v ∧ wrapW (.tenPlus k) v < 2 ^ (9 + k) ∧
      (2 : Int) ^ (10 + k) ∣ v - wrapW (.tenPlus k) v) ∧
    ∀ u : Int, -2 ^ (9 + k) ≤ u → u < 2 ^ (9 + k) → (2 : Int) ^ (10 + k) ∣ v - u → u = wrapW (.tenPlus k) v

/-- R126 with decision D2: sums, differences and products of wrapped values wrap to the same value as those of the exact
ones, so it does not matter after which steps of a computation the wrapping is done. -/
def Obligations.WrapOnceOrAtEachStep : Prop :=
  ∀ (w : RegWidth) (x y : Int),
    wrapW w (wrapW w x + wrapW w y) = wrapW w (x + y) ∧
    wrapW w (wrapW w x - wrapW w y) = wrapW w (x - y) ∧
    wrapW w (wrapW w x * wrapW w y) = wrapW w (x * y)

/-! ## The fatal errors -/

/-- R143 in a step: it raises UnsupportedOperation exactly when the opcode byte it fetches has bit 5 set and is none of the
four ALU bytes, whatever follows the byte (decision D7). That nothing but the latch changes is decision D9. -/
def Obligations.UnsupportedOperationExactly : Prop :=
  ∀ s : State, s.enabled = true → (step s = .next (s.latched .unsupportedOperation) ↔
    s.pc ≤ 255 ∧ (s.mem.peek s.pc).getLsbD 5 = true ∧
      s.mem.peek s.pc ∉ ([0xA0, 0xA1, 0xA2, 0xA3] : List Byte))

/-- R145 in a step: it raises UnrecognizedOpcode exactly when the opcode byte it fetches has bit 5 clear and is none of the
five other table bytes, whatever follows the byte (decision D7). That nothing but the latch changes is decision D9. -/
def Obligations.UnrecognizedOpcodeExactly : Prop :=
  ∀ s : State, s.enabled = true → (step s = .next (s.latched .unrecognizedOpcode) ↔
    s.pc ≤ 255 ∧ (s.mem.peek s.pc).getLsbD 5 = false ∧
      s.mem.peek s.pc ∉ ([0x01, 0x82, 0x47, 0x45, 0x46] : List Byte))

/-- R56: a cell that holds 0 and is fetched as an opcode byte raises UnrecognizedOpcode; so an image of nothing but
zeros, or of no byte, stops at address 0 in its first cycle with the running flag still true and nothing else changed. -/
def Obligations.ZeroByteIsUnrecognized : Prop :=
  (∀ s : State, s.enabled = true → s.pc ≤ 255 → s.mem.peek s.pc = 0 →
    step s = .next (s.latched .unrecognizedOpcode)) ∧
  ∀ (c : Config) (n : Nat), n ≤ 256 → ∃ s, launch c (List.replicate n 0) = some s ∧
    step s = .next (s.latched .unrecognizedOpcode) ∧ s.pc = 0 ∧ s.running = true

/-- R142: an instruction raises InvalidRegister exactly when one of its register operands is above 7: so never HLT, and
never for LDI's immediate. That it wins over a bad stack address and over a zero divisor is the order of checks of R149,
decision D10 (log 12). The index recorded is the offending byte, of two the first: so says the register check that PUSH
and POP make (`regIndex`), the register file's get and set that PRN and LDI use, and the ALU for each operation. -/
def Obligations.InvalidRegisterExactly : Prop :=
  (∀ (i : Instr) (s : State), s.fault = none →
    ((∃ t, exec i s = .next t ∧ t.fault = some .invalidRegister) ↔ i.wellFormed = false)) ∧
  (∀ r : Byte, 8 ≤ r.toNat → regIndex r = .error (.invalidRegister r)) ∧
  (∀ (s : State) (r : Byte) (v : Int), 8 ≤ r.toNat →
    regGet s r = .error (.invalidRegister r) ∧ regSet s r v = .error (.invalidRegister r)) ∧
  ∀ (op : AluOp) (a b : Byte) (s : State),
    (8 ≤ a.toNat → regPair a b = .error (.invalidRegister a) ∧ aluApply op a b s = .error (.invalidRegister a)) ∧
    (a.toNat ≤ 7 → 8 ≤ b.toNat →
      regPair a b = .error (.invalidRegister b) ∧ aluApply op a b s = .error (.invalidRegister b))

/-- R144 with decision D10: an instruction raises DivideByZero exactly when it is DIV on two registers of which the second
holds 0; the destination register is then not mutated, nor is any other. DIV whose first operand names no register and
whose divisor is 0 raises InvalidRegister instead, by the order of checks of R149 (decision D10, log 12). -/
def Obligations.DivideByZeroExactly : Prop :=
  ∀ (n : Instr) (s : State), s.fault = none →
    ((∃ t, exec n s = .next t ∧ t.fault = some .divideByZero) ↔
      ∃ (a b : Byte) (i j : Fin 8), n = .div a b ∧ a.toNat = i.val ∧ b.toNat = j.val ∧ s.reg j = 0) ∧
    (∀ t, exec n s = .next t → t.fault = some .divideByZero → t.regs = s.regs) ∧
    ∀ (a b : Byte) (j : Fin 8), n = .div a b → 8 ≤ a.toNat → b.toNat = j.val → s.reg j = 0 →
      ∃ t, exec n s = .next t ∧ t.fault = some .invalidRegister

/-- R141 with decision D10 for the order of checks: a step raises OutOfBounds exactly in the five cases of the rule: the
fetch; the first operand byte; the second; the stack address of PUSH; that of POP. -/
def Obligations.OutOfBoundsExactly : Prop :=
  ∀ s : State, s.enabled = true → (step s = .next (s.latched .outOfBounds) ↔
    255 < s.pc ∨
    (s.pc = 255 ∧ s.mem.peek 255 ∈ ([0x82, 0x47, 0x45, 0x46, 0xA0, 0xA1, 0xA2, 0xA3] : List Byte)) ∨
    (s.pc = 254 ∧ s.mem.peek 254 ∈ ([0x82, 0xA0, 0xA1, 0xA2, 0xA3] : List Byte)) ∨
    (s.pc ≤ 254 ∧ s.mem.peek s.pc = 0x45 ∧ (s.mem.peek (s.pc + 1)).toNat ≤ 7 ∧
      ¬ (0 ≤ wrapW s.config.width (s.reg 7 - 1) ∧ wrapW s.config.width (s.reg 7 - 1) ≤ 255)) ∨
    (s.pc ≤ 254 ∧ s.mem.peek s.pc = 0x46 ∧ (s.mem.peek (s.pc + 1)).toNat ≤ 7 ∧
      ¬ (0 ≤ s.reg 7 ∧ s.reg 7 ≤ 255)))

/-! ## What an instruction leaves alone -/

/-- R23, R45, R87: the frame of every instruction. When it answers a next state, every register it does not write, every
cell it does not store to, the output unless it is PRN, the running flag unless it is HLT, and the parameters are as
before; the latch is as before, or it is set and the program counter has not moved. -/
def Obligations.ExecFrame : Prop :=
  ∀ (i : Instr) (s t : State), exec i s = .next t →
    (∀ j, writesReg i j = false → t.reg j = s.reg j) ∧
    (∀ c : Nat, ¬ storesTo i s c → t.mem.peek c = s.mem.peek c) ∧
    ((∀ r, i ≠ .prn r) → t.out = s.out) ∧
    (i ≠ .hlt → t.running = s.running) ∧
    t.config = s.config ∧
    (t.fault = s.fault ∨ t.fault ≠ none ∧ t.pc = s.pc)

/-- R23: the table of the registers each instruction reads and writes. A register it does not write is unchanged. A
register it neither reads nor writes has no influence on anything else and keeps whatever value it had; a register it
writes without reading has no influence on the state a completed instruction leaves. -/
def Obligations.RegistersReadAndWritten : Prop :=
  ∀ (i : Instr) (s t : State), exec i s = .next t →
    (∀ j, writesReg i j = false → t.reg j = s.reg j) ∧
    (∀ j v, readsReg i j = false → writesReg i j = false → exec i (s.setReg j v) = .next (t.setReg j v)) ∧
    (∀ j v, readsReg i j = false → writesReg i j = true → t.fault = none → exec i (s.setReg j v) = .next t)

/-- R39, R45: in a step memory changes only by the PUSH at the program counter, and only in the cell at the address that
PUSH forms. -/
def Obligations.OnlyPushWritesMemory : Prop :=
  ∀ (s t : State) (c : Nat), step s = .next t → t.mem.peek c ≠ s.mem.peek c →
    s.enabled = true ∧ s.mem.peek s.pc = 0x45 ∧ (c : Int) = pushAddress s

/-- R31: the running flag is true at start, after reset; a step changes it only by HLT, to false; when it is false no step
is enabled; neither the fetch nor any instruction reads it; and it tells the status Running from Halted. -/
def Obligations.RunningClearedOnlyByHlt : Prop :=
  (∀ c : Config, (State.resetWith c).running = true) ∧
  (∀ s t : State, step s = .next t → t.running ≠ s.running →
    s.enabled = true ∧ s.mem.peek s.pc = 0x01 ∧ t.running = false) ∧
  (∀ s : State, s.running = false → s.enabled = false) ∧
  (∀ s : State, s.fault = none → (s.status = .running ↔ s.running = true) ∧ (s.status = .halted ↔ s.running = false)) ∧
  (∀ (s : State) (b : Bool), fetchInstr { s with running := b } = fetchInstr s) ∧
  ∀ (i : Instr) (s t : State) (b : Bool), exec i s = .next t →
    exec i { s with running := b } = .next { t with running := if i = .hlt then false else b }

/-- R33 with decision D13: the output stream is empty after reset; a step leaves it alone or appends the value of the
register that the PRN at the program counter names; and the machine never reads it: neither the step-enabled condition
nor the fetch depends on what it holds, and an instruction only appends to it. -/
def Obligations.OutputAppendedOnlyByPrn : Prop :=
  (∀ c : Config, (State.resetWith c).out = []) ∧
  (∀ s t : State, step s = .next t → t.out = s.out ∨
    (s.enabled = true ∧ s.mem.peek s.pc = 0x47 ∧
      ∃ i : Fin 8, (s.mem.peek (s.pc + 1)).toNat = i.val ∧ t.out = s.out ++ [s.reg i])) ∧
  (∀ (s : State) (o : List Int), State.enabled { s with out := o } = s.enabled ∧
    fetchInstr { s with out := o } = fetchInstr s) ∧
  ∀ (i : Instr) (s t : State) (earlier : List Int), exec i s = .next t →
    exec i { s with out := earlier ++ s.out } = .next { t with out := earlier ++ t.out }

/-- R38: the parameters do not change during a run. -/
def Obligations.ParametersNeverChange : Prop :=
  ∀ (s t : State) (n : Nat), Sys2Proof.core.run n s = .next t → t.config = s.config

/-! ## Registers, memory, reset, launch -/

/-- R22: the two operations of the register file. Both fail with InvalidRegister outside [0, 7], the index not reduced;
inside, a set changes the one register and a get reads it back. -/
def Obligations.RegisterFileGetSet : Prop :=
  ∀ (s : State) (r : Byte) (v : Int),
    (8 ≤ r.toNat → regGet s r = .error (.invalidRegister r) ∧ regSet s r v = .error (.invalidRegister r)) ∧
    ∀ i : Fin 8, r.toNat = i.val → regGet s r = .ok s.regs[i] ∧
      ∃ t, regSet s r v = .ok t ∧ regGet t r = .ok v ∧ t = { s with regs := t.regs } ∧
        ∀ j : Fin 8, j ≠ i → t.regs[j] = s.regs[j]

/-- R41: a memory read answers the cell's content for an address in [0, 255] and raises OutOfBounds with the address
otherwise. -/
def Obligations.MemReadInBounds : Prop :=
  ∀ (m : Memory) (a : Int),
    (0 ≤ a → a ≤ 255 → memRead m a = .ok (m.peek a.toNat)) ∧
    (a < 0 ∨ 255 < a → memRead m a = .error (.outOfBounds a))

/-- R42, R52 (c): a memory write at an address in [0, 255] sets that cell and changes no other; at any other it raises
OutOfBounds. The canonical form is kept (the model's convention, log 6). -/
def Obligations.MemReadAfterWrite : Prop :=
  ∀ (m : Memory) (a : Int) (b : Byte), m.wf = true →
    (0 ≤ a → a ≤ 255 → ∃ m', memWrite m a b = .ok m' ∧ m'.wf = true ∧
      ∀ x : Int, memRead m' x = if x = a then .ok b else memRead m x) ∧
    (a < 0 ∨ 255 < a → memWrite m a b = .error (.outOfBounds a))

/-- The canonical form is canonical: two memories in it that read alike at every address are the same data (the model's
convention, log 6). -/
def Obligations.CanonicalMemoryUnique : Prop :=
  ∀ m m' : Memory, m.wf = true → m'.wf = true → (∀ a, m.peek a = m'.peek a) → m = m'

/-- R37: the value of every state element after reset, for every value of the parameters. -/
def Obligations.ResetValues : Prop :=
  ∀ c : Config, (∀ a, (State.resetWith c).mem.peek a = 0) ∧
    (∀ i : Fin 8, (State.resetWith c).reg i = if i = 7 then (c.spInit.toNat : Int) else 0) ∧
    (State.resetWith c).pc = 0 ∧ (State.resetWith c).running = true ∧ (State.resetWith c).fault = none ∧
    (State.resetWith c).out = []

/-- R171, R172: the launch state of an image of at most 256 bytes: byte `i` at address `i`, zero in every other cell,
everything else as after reset; the bytes are not checked. -/
def Obligations.LaunchState : Prop :=
  ∀ (c : Config) (image : List Byte), image.length ≤ 256 →
    ∃ m, launch c image = some { State.resetWith c with mem := m } ∧
      (∀ (n : Nat) (h : n < image.length), m.peek n = image[n]) ∧ ∀ n, image.length ≤ n → m.peek n = 0

/-- R13, R147 with decisions D11, D12: the status tells Halted and Faulted runs and the kind of the error; the codes of
the latch are distinct. -/
def Obligations.StatusShowsHowRunEnded : Prop :=
  (∀ s : State, (s.status = .halted ↔ s.Halted) ∧ (s.status = .running ↔ s.enabled = true) ∧
    ∀ k, s.status = .faulted k ↔ s.fault = some k) ∧
  ∀ f g : Option FaultKind, faultCode f = faultCode g → f = g
end

