-- ==== Sys2Proof/Laws/Arith.lean ====
section
/-! SUPPORT. What `wrapW`, `zextW`, `low8` and `tdiv` answer. -/

namespace Sys2Proof.Machine

theorem inRange_tenPlus_iff (k : Nat) (v : Int) :
    inRange (.tenPlus k) v = true ↔ -2 ^ (9 + k) ≤ v ∧ v < 2 ^ (9 + k) := by
  simp [inRange]

/-- Every admitted width represents the values in [-512, 511] (R26). -/
theorem inRange_of_small (w : RegWidth) {v : Int} (lo : -512 ≤ v) (hi : v ≤ 511) : inRange w v = true := by
  cases w with
  | unbounded => rfl
  | tenPlus k =>
    have h : (2 : Int) ^ (9 + k) = 512 * 2 ^ k := by rw [pow_add]; norm_num
    have p : (1 : Int) ≤ 2 ^ k := one_le_pow₀ (by norm_num)
    rw [inRange_tenPlus_iff, h]
    omega

theorem wrapW_inRange (w : RegWidth) (v : Int) : inRange w (wrapW w v) = true := by
  cases w with
  | unbounded => rfl
  | tenPlus k =>
    have h : (2 : Nat) ^ (10 + k) = 2 * 2 ^ (9 + k) := by rw [← pow_succ']; congr 1; omega
    have pos : 0 < 2 ^ (10 + k) := Nat.pow_pos (by norm_num)
    have lo := Int.le_bmod (x := v) pos
    have hi := Int.bmod_lt (x := v) pos
    have c : ((2 ^ (10 + k) : Nat) : Int) = 2 * 2 ^ (9 + k) := by rw [h]; push_cast; rfl
    rw [inRange_tenPlus_iff]
    simp only [wrapW]
    omega

/-- A value already in range is left alone. -/
theorem wrapW_of_inRange {w : RegWidth} {v : Int} (h : inRange w v = true) : wrapW w v = v := by
  cases w with
  | unbounded => rfl
  | tenPlus k =>
    have e : (2 : Nat) ^ (10 + k) = 2 * 2 ^ (9 + k) := by rw [← pow_succ']; congr 1; omega
    have c : ((2 ^ (9 + k) : Nat) : Int) = 2 ^ (9 + k) := by push_cast; rfl
    rw [inRange_tenPlus_iff] at h
    simp only [wrapW]
    apply Int.bmod_eq_of_le <;> omega

theorem wrapW_of_small (w : RegWidth) {v : Int} (lo : -512 ≤ v) (hi : v ≤ 511) : wrapW w v = v :=
  wrapW_of_inRange (inRange_of_small w lo hi)

theorem zextW_nonneg (b : Byte) : 0 ≤ zextW b := Int.natCast_nonneg _

theorem zextW_le (b : Byte) : zextW b ≤ 255 := by
  have := b.isLt
  simp only [zextW]
  omega

theorem inRange_zextW (w : RegWidth) (b : Byte) : inRange w (zextW b) = true :=
  inRange_of_small w (by have := zextW_nonneg b; omega) (by have := zextW_le b; omega)

theorem zextW_low8 (v : Int) : zextW (low8 v) = v % 256 := by
  have nn := Int.emod_nonneg v (b := 256) (by norm_num)
  have lt := Int.emod_lt_of_pos v (b := 256) (by norm_num)
  simp only [zextW, low8, BitVec.toNat_ofNat]
  omega

theorem low8_zextW (b : Byte) : low8 (zextW b) = b := by
  apply BitVec.eq_of_toNat_eq
  have := b.isLt
  simp only [zextW, low8, BitVec.toNat_ofNat]
  omega

/-- `tdiv` is the quotient rounded toward zero of Lean's own integers. -/
theorem tdiv_eq (a b : Int) : tdiv a b = a.tdiv b := by
  rcases Int.natAbs_eq a with ha | ha <;> rcases Int.natAbs_eq b with hb | hb <;>
    rw [tdiv, ha, hb] <;> generalize a.natAbs = m <;> generalize b.natAbs = n <;>
    rcases m.eq_zero_or_pos with rfl | hm <;> rcases n.eq_zero_or_pos with rfl | hn <;>
    simp [Int.sign_natCast_of_ne_zero, *, Int.tdiv_neg, Int.neg_tdiv, Nat.pos_iff_ne_zero.mp]

end Sys2Proof.Machine
end

