-- ==== Sys2Proof/Laws/Decode.lean ====
section
/-! SUPPORT. The decoder's pieces: the selection of an opcode, and the fields of the nine legal bytes. -/

namespace Sys2Proof

/-- A byte selects an opcode exactly when it is that opcode's byte, re-encoded from its fields (R65, R72). -/
theorem selectOpcode_eq_some_iff (b : Byte) (op : Opcode) : selectOpcode b = some op ↔ b = op.byte := by
  cases op <;> revert b <;> decide

@[simp] theorem selectOpcode_byte (op : Opcode) : selectOpcode op.byte = some op :=
  (selectOpcode_eq_some_iff _ _).mpr rfl

@[simp] theorem operandCountField_byte (op : Opcode) : operandCountField op.byte = op.operandCount := by
  cases op <;> rfl

@[simp] theorem isAluField_byte (op : Opcode) : isAluField op.byte = op.fields.2.1 := by
  cases op <;> rfl

/-- Decoding an opcode's byte into its three fields gives the row it was re-encoded from (R72). -/
theorem fields_of_byte (op : Opcode) :
    (operandCountField op.byte, isAluField op.byte, identityField op.byte) = op.fields := by
  cases op <;> decide

theorem decodeByte_of_select {b : Byte} {op : Opcode} (h : selectOpcode b = some op) :
    decodeByte b = .ok { opcode := op, operandCount := op.operandCount, isAlu := op.fields.2.1 } := by
  obtain rfl := (selectOpcode_eq_some_iff b op).mp h
  simp [decodeByte]

theorem decodeByte_of_none {b : Byte} (h : selectOpcode b = none) : decodeByte b = .error (illegalKind b) := by
  simp [decodeByte, h]

@[simp] theorem operands_length (i : Instr) : i.operands.length = i.opcode.operandCount := by
  cases i <;> rfl

/-- An opcode and its operand bytes make the instruction they came from. -/
theorem opcode_instr_operands (i : Instr) : i.opcode.instr (i.operands.getD 0 0) (i.operands.getD 1 0) = i := by
  cases i <;> rfl

@[simp] theorem opcode_instr (op : Opcode) (x y : Byte) : (op.instr x y).opcode = op := by
  cases op <;> rfl

/-- The operand bytes of an instruction made from an opcode are the first ones it was given. -/
theorem instr_operands (op : Opcode) (x y : Byte) : (op.instr x y).operands = [x, y].take op.operandCount := by
  cases op <;> rfl

theorem operandCount_le (op : Opcode) : op.operandCount ≤ 2 := by
  cases op <;> decide

/-- What the decoder answers on a sequence that begins with a legal byte. -/
theorem decode_cons_of_select {b : Byte} {op : Opcode} (h : selectOpcode b = some op) (rest : List Byte) :
    decode (b :: rest) = if rest.length < op.operandCount then .error (.missingByte (rest.length + 1))
      else .ok (op.instr (rest.getD 0 0) (rest.getD 1 0), rest.drop op.operandCount) := by
  simp [decode, decodeByte_of_select h]

theorem decode_cons_of_none {b : Byte} (h : selectOpcode b = none) (rest : List Byte) :
    decode (b :: rest) = .error (.illegal (illegalKind b)) := by
  simp [decode, decodeByte_of_none h]

end Sys2Proof
end

