-- ==== Sys2Proof/Laws/Memory.lean ====
section
/-! SUPPORT. Reading, writing and storing cells: what each answers, and that each keeps the canonical form. -/

namespace Sys2Proof.Machine

/-! ## Read after write -/

@[simp] theorem peek_nil (a : Nat) : Memory.peek [] a = Memory.unlisted := rfl

theorem peek_cons (c : Host.Cell) (m : Memory) (a : Nat) :
    Memory.peek (c :: m) a = if c.1 = a then c.2 else Memory.peek m a := rfl

/-- A cell that no entry names reads as an unlisted one. -/
theorem peek_of_lt {m : Memory} {a : Nat} (h : ∀ c ∈ m, a < c.1) : m.peek a = Memory.unlisted := by
  induction m with
  | nil => rfl
  | cons c m ih =>
    have hc := h c (by simp)
    rw [peek_cons, if_neg (by omega)]
    exact ih fun d hd => h d (by simp [hd])

theorem wf_cons_iff (a : Nat) (b : Byte) (m : Memory) :
    Memory.wf ((a, b) :: m) = true ↔
      a < 256 ∧ b ≠ Memory.unlisted ∧ (∀ c ∈ m, a < c.1) ∧ Memory.wf m = true := by
  simp [Memory.wf, and_assoc]

theorem peek_poke {m : Memory} (h : m.wf = true) (a : Nat) (b : Byte) (x : Nat) :
    (m.poke a b).peek x = if x = a then b else m.peek x := by
  induction m with
  | nil =>
    by_cases hb : b = Memory.unlisted
    · simp [Memory.poke, hb]
    · simp [Memory.poke, hb, peek_cons, eq_comm]
  | cons c m ih =>
    obtain ⟨c, v⟩ := c
    obtain ⟨-, -, above, hm⟩ := (wf_cons_iff c v m).mp h
    rcases lt_trichotomy a c with lt | rfl | gt
    · have un : Memory.peek ((c, v) :: m) a = Memory.unlisted := by
        refine peek_of_lt fun d hd => ?_
        rcases List.mem_cons.mp hd with rfl | hd
        · exact lt
        · exact lt.trans (above d hd)
      by_cases hb : b = Memory.unlisted
      · by_cases hx : x = a
        · simp only [Memory.poke, lt, hb, if_true, hx, un]
        · simp [Memory.poke, lt, hb, hx]
      · by_cases hx : x = a
        · simp [Memory.poke, lt, hb, hx, peek_cons]
        · simp [Memory.poke, lt, hb, hx, Ne.symm hx, peek_cons]
    · by_cases hb : b = Memory.unlisted
      · by_cases hx : x = a
        · simp [Memory.poke, hb, hx, peek_of_lt above]
        · simp [Memory.poke, hb, hx, peek_cons, Ne.symm hx]
      · by_cases hx : x = a
        · simp [Memory.poke, hb, hx, peek_cons]
        · simp [Memory.poke, hb, hx, peek_cons, Ne.symm hx]
    · have e : Memory.poke ((c, v) :: m) a b = (c, v) :: Memory.poke m a b := by
        simp [Memory.poke, not_lt.mpr gt.le, gt.ne']
      rw [e, peek_cons, peek_cons, ih hm]
      by_cases hx : x = a
      · simp [hx, gt.ne]
      · simp [hx]

/-- A write leaves every other cell alone, whatever the form of the list. -/
theorem peek_poke_ne (m : Memory) {a x : Nat} (b : Byte) (h : x ≠ a) : (m.poke a b).peek x = m.peek x := by
  induction m with
  | nil =>
    simp only [Memory.poke]
    split <;> simp [peek_cons, h.symm]
  | cons c m ih =>
    obtain ⟨c, v⟩ := c
    simp only [Memory.poke]
    split
    · split <;> simp [peek_cons, h.symm]
    · split
      · subst ‹a = c›
        split <;> simp [peek_cons, h.symm]
      · simp [peek_cons, ih]

/-! ## The canonical form -/

theorem mem_poke {m : Memory} {a : Nat} {b : Byte} {c : Host.Cell} (h : c ∈ m.poke a b) : c.1 = a ∨ c ∈ m := by
  induction m with
  | nil =>
    simp only [Memory.poke] at h
    split at h <;> simp_all
  | cons d m ih =>
    obtain ⟨d, v⟩ := d
    simp only [Memory.poke] at h
    split at h
    · split at h <;> aesop
    · split at h
      · split at h <;> aesop
      · rcases List.mem_cons.mp h with rfl | h
        · simp
        · exact (ih h).imp_right fun h => by simp [h]

theorem poke_wf {m : Memory} (h : m.wf = true) {a : Nat} (ha : a < 256) (b : Byte) : (m.poke a b).wf = true := by
  induction m with
  | nil =>
    by_cases hb : b = Memory.unlisted
    · simp [Memory.poke, hb, Memory.wf]
    · simp [Memory.poke, hb, Memory.wf, ha]
  | cons c m ih =>
    obtain ⟨c, v⟩ := c
    obtain ⟨hc, hv, above, hm⟩ := (wf_cons_iff c v m).mp h
    rcases lt_trichotomy a c with lt | rfl | gt
    · by_cases hb : b = Memory.unlisted
      · simpa [Memory.poke, lt, hb] using h
      · have e : Memory.poke ((c, v) :: m) a b = (a, b) :: (c, v) :: m := by simp [Memory.poke, lt, hb]
        rw [e, wf_cons_iff]
        refine ⟨ha, hb, fun d hd => ?_, h⟩
        rcases List.mem_cons.mp hd with rfl | hd
        · exact lt
        · exact lt.trans (above d hd)
    · by_cases hb : b = Memory.unlisted
      · simpa [Memory.poke, hb] using hm
      · have e : Memory.poke ((a, v) :: m) a b = (a, b) :: m := by simp [Memory.poke, hb]
        rw [e, wf_cons_iff]
        exact ⟨ha, hb, above, hm⟩
    · have e : Memory.poke ((c, v) :: m) a b = (c, v) :: Memory.poke m a b := by
        simp [Memory.poke, not_lt.mpr gt.le, gt.ne']
      rw [e, wf_cons_iff]
      refine ⟨hc, hv, fun d hd => ?_, ih hm⟩
      rcases mem_poke hd with rfl | hd
      · exact gt
      · exact above d hd

theorem store_wf {m : Memory} (h : m.wf = true) (base : Nat) (bytes : List Byte) :
    (m.store base bytes).wf = true := by
  induction bytes generalizing m base with
  | nil => exact h
  | cons b bs ih =>
    simp only [Memory.store]
    split
    · exact ih (poke_wf h ‹_› b) _
    · exact ih h _

/-- A store writes its bytes to the addresses from `base` on that exist, and no other cell. -/
theorem peek_store {m : Memory} (h : m.wf = true) (base : Nat) (bytes : List Byte) (x : Nat) :
    (m.store base bytes).peek x =
      if base ≤ x ∧ x < base + bytes.length ∧ x < 256 then bytes.getD (x - base) 0 else m.peek x := by
  induction bytes generalizing m base with
  | nil => simp [Memory.store]; omega
  | cons b bs ih =>
    have step : (if base < 256 then m.poke base b else m).peek x =
        if x = base ∧ x < 256 then b else m.peek x := by
      by_cases hb : base < 256
      · rw [if_pos hb, peek_poke h]
        by_cases hx : x = base
        · simp [hx, hb]
        · simp [hx]
      · rw [if_neg hb, if_neg (by omega)]
    have wf' : (if base < 256 then m.poke base b else m).wf = true := by
      split
      · exact poke_wf h ‹_› b
      · exact h
    simp only [Memory.store, ih wf', step, List.length_cons]
    rcases lt_trichotomy x base with lt | rfl | gt
    · rw [if_neg (by omega), if_neg (by omega), if_neg (by omega)]
    · by_cases hx : x < 256
      · rw [if_neg (by omega), if_pos ⟨rfl, hx⟩, if_pos (by omega)]
        simp
      · rw [if_neg (by omega), if_neg (by omega), if_neg (by omega)]
    · have e : x - base = (x - (base + 1)) + 1 := by omega
      by_cases hx : x < base + (bs.length + 1) ∧ x < 256
      · rw [if_pos (by omega), if_pos (by omega), e, List.getD_cons_succ]
      · rw [if_neg (by omega), if_neg (by omega), if_neg (by omega)]

/-! ## Address translation and the two primitives -/

theorem translate_ok_iff (a : Int) (n : Nat) : translate a = .ok n ↔ n < 256 ∧ a = n := by
  simp only [translate]
  split
  · simp only [Except.ok.injEq]; omega
  · simp only [reduceCtorEq, false_iff]; omega

theorem translate_natCast {n : Nat} (h : n < 256) : translate (n : Int) = .ok n :=
  (translate_ok_iff _ _).mpr ⟨h, rfl⟩

theorem translate_error {a : Int} (h : ¬ (0 ≤ a ∧ a < 256)) : translate a = .error (.outOfBounds a) := if_neg h

theorem memRead_natCast (m : Memory) {n : Nat} (h : n < 256) : memRead m (n : Int) = .ok (m.peek n) := by
  rw [memRead, translate_natCast h]; rfl

theorem memRead_error (m : Memory) {a : Int} (h : ¬ (0 ≤ a ∧ a < 256)) : memRead m a = .error (.outOfBounds a) := by
  rw [memRead, translate_error h]; rfl

theorem memRead_ok (m : Memory) {a : Int} (h : 0 ≤ a ∧ a < 256) : memRead m a = .ok (m.peek a.toNat) := by
  rw [memRead, translate, if_pos (by exact_mod_cast h)]; rfl

theorem memWrite_ok (m : Memory) {a : Int} (h : 0 ≤ a ∧ a < 256) (b : Byte) :
    memWrite m a b = .ok (m.poke a.toNat b) := by
  rw [memWrite, translate, if_pos (by exact_mod_cast h)]; rfl

theorem memWrite_error (m : Memory) {a : Int} (h : ¬ (0 ≤ a ∧ a < 256)) (b : Byte) :
    memWrite m a b = .error (.outOfBounds a) := by
  rw [memWrite, translate_error h]; rfl

end Sys2Proof.Machine
end

