-- ==== Sys2Proof/Laws/State.lean ====
section
/-! SUPPORT. What each update of the state leaves in each field. -/

namespace Sys2Proof.Machine

variable (s : State)

/-! ## The register file -/

@[simp] theorem setReg_mem (i : Fin 8) (v : Int) : (s.setReg i v).mem = s.mem := rfl
@[simp] theorem setReg_pc (i : Fin 8) (v : Int) : (s.setReg i v).pc = s.pc := rfl
@[simp] theorem setReg_running (i : Fin 8) (v : Int) : (s.setReg i v).running = s.running := rfl
@[simp] theorem setReg_fault (i : Fin 8) (v : Int) : (s.setReg i v).fault = s.fault := rfl
@[simp] theorem setReg_out (i : Fin 8) (v : Int) : (s.setReg i v).out = s.out := rfl
@[simp] theorem setReg_config (i : Fin 8) (v : Int) : (s.setReg i v).config = s.config := rfl
@[simp] theorem setReg_regs (i : Fin 8) (v : Int) : (s.setReg i v).regs = s.regs.set i v := rfl

theorem reg_setReg (i j : Fin 8) (v : Int) :
    (s.setReg i v).reg j = if i = j then v else s.reg j := by
  simp [State.reg, State.setReg, Vector.getElem_set, Fin.ext_iff]

@[simp] theorem reg_setReg_self (i : Fin 8) (v : Int) : (s.setReg i v).reg i = v := by
  simp [reg_setReg]

theorem reg_setReg_ne {i j : Fin 8} (h : i ≠ j) (v : Int) : (s.setReg i v).reg j = s.reg j := by
  simp [reg_setReg, h]

/-! ## Memory -/

@[simp] theorem setMem_mem (m : Memory) : (s.setMem m).mem = m := rfl
@[simp] theorem setMem_regs (m : Memory) : (s.setMem m).regs = s.regs := rfl
@[simp] theorem setMem_pc (m : Memory) : (s.setMem m).pc = s.pc := rfl
@[simp] theorem setMem_running (m : Memory) : (s.setMem m).running = s.running := rfl
@[simp] theorem setMem_fault (m : Memory) : (s.setMem m).fault = s.fault := rfl
@[simp] theorem setMem_out (m : Memory) : (s.setMem m).out = s.out := rfl
@[simp] theorem setMem_config (m : Memory) : (s.setMem m).config = s.config := rfl
@[simp] theorem setMem_reg (m : Memory) (i : Fin 8) : (s.setMem m).reg i = s.reg i := rfl

/-! ## The program counter -/

@[simp] theorem advance_mem (op : Opcode) : (s.advance op).mem = s.mem := rfl
@[simp] theorem advance_regs (op : Opcode) : (s.advance op).regs = s.regs := rfl
@[simp] theorem advance_pc (op : Opcode) : (s.advance op).pc = s.pc + 1 + op.operandCount := rfl
@[simp] theorem advance_running (op : Opcode) : (s.advance op).running = s.running := rfl
@[simp] theorem advance_fault (op : Opcode) : (s.advance op).fault = s.fault := rfl
@[simp] theorem advance_out (op : Opcode) : (s.advance op).out = s.out := rfl
@[simp] theorem advance_config (op : Opcode) : (s.advance op).config = s.config := rfl
@[simp] theorem advance_reg (op : Opcode) (i : Fin 8) : (s.advance op).reg i = s.reg i := rfl

/-! ## The running flag -/

@[simp] theorem halt_mem : s.halt.mem = s.mem := rfl
@[simp] theorem halt_regs : s.halt.regs = s.regs := rfl
@[simp] theorem halt_pc : s.halt.pc = s.pc := rfl
@[simp] theorem halt_running : s.halt.running = false := rfl
@[simp] theorem halt_fault : s.halt.fault = s.fault := rfl
@[simp] theorem halt_out : s.halt.out = s.out := rfl
@[simp] theorem halt_config : s.halt.config = s.config := rfl
@[simp] theorem halt_reg (i : Fin 8) : s.halt.reg i = s.reg i := rfl

/-! ## The fault latch -/

@[simp] theorem takeFault_mem (f : Fault) : (s.takeFault f).mem = s.mem := rfl
@[simp] theorem takeFault_regs (f : Fault) : (s.takeFault f).regs = s.regs := rfl
@[simp] theorem takeFault_pc (f : Fault) : (s.takeFault f).pc = s.pc := rfl
@[simp] theorem takeFault_running (f : Fault) : (s.takeFault f).running = s.running := rfl
@[simp] theorem takeFault_fault (f : Fault) : (s.takeFault f).fault = some f.kind := rfl
@[simp] theorem takeFault_out (f : Fault) : (s.takeFault f).out = s.out := rfl
@[simp] theorem takeFault_config (f : Fault) : (s.takeFault f).config = s.config := rfl
@[simp] theorem takeFault_reg (f : Fault) (i : Fin 8) : (s.takeFault f).reg i = s.reg i := rfl

/-! ## The output stream -/

@[simp] theorem emit_mem (v : Int) : (s.emit v).mem = s.mem := rfl
@[simp] theorem emit_regs (v : Int) : (s.emit v).regs = s.regs := rfl
@[simp] theorem emit_pc (v : Int) : (s.emit v).pc = s.pc := rfl
@[simp] theorem emit_running (v : Int) : (s.emit v).running = s.running := rfl
@[simp] theorem emit_fault (v : Int) : (s.emit v).fault = s.fault := rfl
@[simp] theorem emit_out (v : Int) : (s.emit v).out = s.out ++ [v] := rfl
@[simp] theorem emit_config (v : Int) : (s.emit v).config = s.config := rfl
@[simp] theorem emit_reg (v : Int) (i : Fin 8) : (s.emit v).reg i = s.reg i := rfl

/-! ## Reset, and placing a word at the program counter -/

@[simp] theorem resetWith_mem (c : Config) : (State.resetWith c).mem = [] := rfl
@[simp] theorem resetWith_pc (c : Config) : (State.resetWith c).pc = 0 := rfl
@[simp] theorem resetWith_running (c : Config) : (State.resetWith c).running = true := rfl
@[simp] theorem resetWith_fault (c : Config) : (State.resetWith c).fault = none := rfl
@[simp] theorem resetWith_out (c : Config) : (State.resetWith c).out = [] := rfl
@[simp] theorem resetWith_config (c : Config) : (State.resetWith c).config = c := rfl

theorem resetWith_reg (c : Config) (i : Fin 8) :
    (State.resetWith c).reg i = if i = 7 then (c.spInit.toNat : Int) else 0 := by
  simp only [State.reg, State.resetWith, RegFile.reset, Fin.getElem_fin, Vector.getElem_set, Fin.ext_iff]
  split <;> split <;> first | rfl | simp_all <;> omega

@[simp] theorem placeAtPc_mem (bytes : List Byte) : (s.placeAtPc bytes).mem = s.mem.store s.pc bytes := rfl
@[simp] theorem placeAtPc_regs (bytes : List Byte) : (s.placeAtPc bytes).regs = s.regs := rfl
@[simp] theorem placeAtPc_pc (bytes : List Byte) : (s.placeAtPc bytes).pc = s.pc := rfl
@[simp] theorem placeAtPc_running (bytes : List Byte) : (s.placeAtPc bytes).running = true := rfl
@[simp] theorem placeAtPc_fault (bytes : List Byte) : (s.placeAtPc bytes).fault = none := rfl
@[simp] theorem placeAtPc_out (bytes : List Byte) : (s.placeAtPc bytes).out = s.out := rfl
@[simp] theorem placeAtPc_config (bytes : List Byte) : (s.placeAtPc bytes).config = s.config := rfl

end Sys2Proof.Machine
end

