-- ==== Sys2Proof/Laws/Exec.lean ====
section
/-! SUPPORT. What the shared operations and each meaning can do: for every instruction its result on operands that name
registers, and the error it takes otherwise. -/

namespace Sys2Proof.Machine

/-! ## Shared operations -/

@[simp] theorem settle_ok (s t : State) : settle s (.ok t) = .next t := rfl

@[simp] theorem settle_error (s : State) (f : Fault) : settle s (.error f) = .next (s.takeFault f) := rfl

/-- A cycle completes with the state its work made, or takes an error in the state before it. -/
theorem settle_cases {s t : State} {work : Except Fault State} (h : settle s work = .next t) :
    work = .ok t ∨ ∃ f, work = .error f ∧ t = s.takeFault f := by
  cases work with
  | ok u => exact .inl (by simpa [settle] using h)
  | error f => exact .inr ⟨f, rfl, by simpa [settle] using h.symm⟩

theorem regIndex_ok {r : Byte} {i : Fin 8} (h : r.toNat = i.val) : regIndex r = .ok i := by
  simp [regIndex, h]

theorem regIndex_error {r : Byte} (h : 8 ≤ r.toNat) : regIndex r = .error (.invalidRegister r) := by
  simp [regIndex, Nat.not_lt.mpr h]

/-- An operand byte names a register or it is above 7. -/
theorem names_register_or_above (r : Byte) : (∃ i : Fin 8, r.toNat = i.val) ∨ 8 ≤ r.toNat := by
  by_cases h : r.toNat < 8
  · exact .inl ⟨⟨r.toNat, h⟩, rfl⟩
  · exact .inr (by omega)

theorem regPair_ok {a b : Byte} {i j : Fin 8} (ha : a.toNat = i.val) (hb : b.toNat = j.val) :
    regPair a b = .ok (i, j) := by
  simp [regPair, regIndex_ok ha, regIndex_ok hb, bind, Except.bind, pure, Except.pure]

theorem regPair_error_left {a : Byte} (b : Byte) (h : 8 ≤ a.toNat) : regPair a b = .error (.invalidRegister a) := by
  simp [regPair, regIndex_error h, bind, Except.bind]

theorem regPair_error_right {a b : Byte} {i : Fin 8} (ha : a.toNat = i.val) (h : 8 ≤ b.toNat) :
    regPair a b = .error (.invalidRegister b) := by
  simp [regPair, regIndex_ok ha, regIndex_error h, bind, Except.bind]

/-! ## LDI, PRN -/

theorem execLdi_ok {r : Byte} {i : Fin 8} (h : r.toNat = i.val) (v : Byte) (s : State) :
    execLdi r v s = .next ((s.setReg i (zextW v)).advance .ldi) := by
  simp [execLdi, regSet, regIndex_ok h, bind, Except.bind, pure, Except.pure]

theorem execLdi_error {r : Byte} (h : 8 ≤ r.toNat) (v : Byte) (s : State) :
    execLdi r v s = .next (s.takeFault (.invalidRegister r)) := by
  simp [execLdi, regSet, regIndex_error h, bind, Except.bind]

theorem execPrn_ok {r : Byte} {i : Fin 8} (h : r.toNat = i.val) (s : State) :
    execPrn r s = .next ((s.emit (s.reg i)).advance .prn) := by
  simp [execPrn, regGet, regIndex_ok h, bind, Except.bind, pure, Except.pure]

theorem execPrn_error {r : Byte} (h : 8 ≤ r.toNat) (s : State) :
    execPrn r s = .next (s.takeFault (.invalidRegister r)) := by
  simp [execPrn, regGet, regIndex_error h, bind, Except.bind]

/-! ## PUSH, POP -/

theorem execPush_ok {r : Byte} {i : Fin 8} (h : r.toNat = i.val) {s : State}
    (ha : 0 ≤ pushAddress s ∧ pushAddress s < 256) :
    execPush r s = .next (((s.setReg 7 (pushAddress s)).setMem
      (s.mem.poke (pushAddress s).toNat (low8 ((s.setReg 7 (pushAddress s)).reg i)))).advance .push) := by
  simp [execPush, regIndex_ok h, memWrite_ok _ ha, bind, Except.bind, pure, Except.pure]

theorem execPush_error_index {r : Byte} (h : 8 ≤ r.toNat) (s : State) :
    execPush r s = .next (s.takeFault (.invalidRegister r)) := by
  simp [execPush, regIndex_error h, bind, Except.bind]

theorem execPush_error_address {r : Byte} {i : Fin 8} (h : r.toNat = i.val) {s : State}
    (ha : ¬ (0 ≤ pushAddress s ∧ pushAddress s < 256)) :
    execPush r s = .next (s.takeFault (.outOfBounds (pushAddress s))) := by
  simp [execPush, regIndex_ok h, memWrite_error _ ha, bind, Except.bind]

/-- The state POP leaves when it completes: the destination is written, then register 7 is read and incremented. -/
def popped (s : State) (i : Fin 8) : State :=
  let s₁ := s.setReg i (zextW (s.mem.peek (popAddress s).toNat))
  (s₁.setReg 7 (s.wrap (s₁.reg 7 + 1))).advance .pop

theorem execPop_ok {r : Byte} {i : Fin 8} (h : r.toNat = i.val) {s : State}
    (ha : 0 ≤ popAddress s ∧ popAddress s < 256) : execPop r s = .next (popped s i) := by
  simp [execPop, regIndex_ok h, memRead_ok _ ha, bind, Except.bind, pure, Except.pure, popped, State.wrap]

theorem execPop_error_index {r : Byte} (h : 8 ≤ r.toNat) (s : State) :
    execPop r s = .next (s.takeFault (.invalidRegister r)) := by
  simp [execPop, regIndex_error h, bind, Except.bind]

theorem execPop_error_address {r : Byte} {i : Fin 8} (h : r.toNat = i.val) {s : State}
    (ha : ¬ (0 ≤ popAddress s ∧ popAddress s < 256)) :
    execPop r s = .next (s.takeFault (.outOfBounds (popAddress s))) := by
  simp [execPop, regIndex_ok h, memRead_error _ ha, bind, Except.bind]

/-! ## The ALU -/

/-- The four instructions share their work: the ALU contract, then the advance. -/
def aluExec (op : AluOp) (opcode : Opcode) (a b : Byte) (s : State) : Host.Outcome State Fault Refusal :=
  settle s ((aluApply op a b s).map fun t => t.advance opcode)

theorem execAdd_eq (a b : Byte) (s : State) : execAdd a b s = aluExec .add .add a b s := by
  simp only [execAdd, aluExec]; cases aluApply .add a b s <;> rfl

theorem execSub_eq (a b : Byte) (s : State) : execSub a b s = aluExec .sub .sub a b s := by
  simp only [execSub, aluExec]; cases aluApply .sub a b s <;> rfl

theorem execMul_eq (a b : Byte) (s : State) : execMul a b s = aluExec .mul .mul a b s := by
  simp only [execMul, aluExec]; cases aluApply .mul a b s <;> rfl

theorem execDiv_eq (a b : Byte) (s : State) : execDiv a b s = aluExec .div .div a b s := by
  simp only [execDiv, aluExec]; cases aluApply .div a b s <;> rfl

theorem aluExec_ok {op : AluOp} (opcode : Opcode) {a b : Byte} {i j : Fin 8} (ha : a.toNat = i.val)
    (hb : b.toNat = j.val) {s : State} {v : Int} (hv : aluResult op (s.reg i) (s.reg j) = .ok v) :
    aluExec op opcode a b s = .next ((s.setReg i (s.wrap v)).advance opcode) := by
  simp [aluExec, aluApply, regPair_ok ha hb, hv, bind, Except.bind, pure, Except.pure, Except.map]

theorem aluExec_error_result {op : AluOp} (opcode : Opcode) {a b : Byte} {i j : Fin 8} (ha : a.toNat = i.val)
    (hb : b.toNat = j.val) {s : State} {f : Fault} (hv : aluResult op (s.reg i) (s.reg j) = .error f) :
    aluExec op opcode a b s = .next (s.takeFault f) := by
  simp [aluExec, aluApply, regPair_ok ha hb, hv, bind, Except.bind, Except.map]

theorem aluExec_error_left (op : AluOp) (opcode : Opcode) {a : Byte} (b : Byte) (h : 8 ≤ a.toNat) (s : State) :
    aluExec op opcode a b s = .next (s.takeFault (.invalidRegister a)) := by
  simp [aluExec, aluApply, regPair_error_left b h, bind, Except.bind, Except.map]

theorem aluExec_error_right (op : AluOp) (opcode : Opcode) {a b : Byte} {i : Fin 8} (ha : a.toNat = i.val)
    (h : 8 ≤ b.toNat) (s : State) : aluExec op opcode a b s = .next (s.takeFault (.invalidRegister b)) := by
  simp [aluExec, aluApply, regPair_error_right ha h, bind, Except.bind, Except.map]

/-- Everything an ALU instruction can do. -/
theorem aluExec_cases (op : AluOp) (opcode : Opcode) (a b : Byte) (s : State) :
    (∃ (i j : Fin 8) (v : Int), a.toNat = i.val ∧ b.toNat = j.val ∧ aluResult op (s.reg i) (s.reg j) = .ok v ∧
        aluExec op opcode a b s = .next ((s.setReg i (s.wrap v)).advance opcode)) ∨
      (∃ i j : Fin 8, a.toNat = i.val ∧ b.toNat = j.val ∧ op = .div ∧ s.reg j = 0 ∧
        aluExec op opcode a b s = .next (s.takeFault .divideByZero)) ∨
      (8 ≤ a.toNat ∧ aluExec op opcode a b s = .next (s.takeFault (.invalidRegister a))) ∨
      (8 ≤ b.toNat ∧ a.toNat < 8 ∧ aluExec op opcode a b s = .next (s.takeFault (.invalidRegister b))) := by
  rcases names_register_or_above a with ⟨i, ha⟩ | ha
  · rcases names_register_or_above b with ⟨j, hb⟩ | hb
    · cases hv : aluResult op (s.reg i) (s.reg j) with
      | ok v => exact .inl ⟨i, j, v, ha, hb, hv, aluExec_ok opcode ha hb hv⟩
      | error f =>
        have hz : op = .div ∧ s.reg j = 0 ∧ f = .divideByZero := by
          cases op <;> simp only [aluResult, reduceCtorEq] at hv
          split at hv <;> simp_all
        obtain ⟨rfl, hz, rfl⟩ := hz
        exact .inr (.inl ⟨i, j, ha, hb, rfl, hz, aluExec_error_result opcode ha hb hv⟩)
    · exact .inr (.inr (.inr ⟨hb, by omega, aluExec_error_right op opcode ha hb s⟩))
  · exact .inr (.inr (.inl ⟨ha, aluExec_error_left op opcode b ha s⟩))

/-! ## Every instruction -/

/-- What a completed instruction does to the parts every instruction treats alike (R28, R32, R38). -/
structure CompletedBy (i : Instr) (s t : State) : Prop where
  pc     : t.pc = s.pc + 1 + i.opcode.operandCount
  fault  : t.fault = s.fault
  config : t.config = s.config

/-- The errors an instruction can raise when it executes; the other two are the decoder's (R143, R145). -/
def Fault.ofExecution (f : Fault) : Prop :=
  f.kind = .outOfBounds ∨ f.kind = .invalidRegister ∨ f.kind = .divideByZero

theorem aluExec_next (op : AluOp) (opcode : Opcode) (a b : Byte) (s : State) :
    ∃ t, aluExec op opcode a b s = .next t ∧ ((∃ f, f.ofExecution ∧ t = s.takeFault f) ∨
      (t.pc = s.pc + 1 + opcode.operandCount ∧ t.fault = s.fault ∧ t.config = s.config)) := by
  rcases aluExec_cases op opcode a b s with ⟨i, j, v, -, -, -, h⟩ | ⟨i, j, -, -, -, -, h⟩ | ⟨-, h⟩ | ⟨-, -, h⟩
  · exact ⟨_, h, .inr ⟨rfl, rfl, rfl⟩⟩
  · exact ⟨_, h, .inl ⟨_, .inr (.inr rfl), rfl⟩⟩
  all_goals exact ⟨_, h, .inl ⟨_, .inr (.inl rfl), rfl⟩⟩

/-- An instruction always ends in a next state: it completes, or it takes an error in the state before it. -/
theorem exec_next (i : Instr) (s : State) :
    ∃ t, exec i s = .next t ∧ ((∃ f, f.ofExecution ∧ t = s.takeFault f) ∨ CompletedBy i s t) := by
  have index : ∀ {o : Host.Outcome State Fault Refusal} {r : Byte}, o = .next (s.takeFault (.invalidRegister r)) →
      ∃ t, o = .next t ∧ ((∃ f, f.ofExecution ∧ t = s.takeFault f) ∨ CompletedBy i s t) :=
    fun h => ⟨_, h, .inl ⟨_, .inr (.inl rfl), rfl⟩⟩
  have address : ∀ {o : Host.Outcome State Fault Refusal} {a : Int}, o = .next (s.takeFault (.outOfBounds a)) →
      ∃ t, o = .next t ∧ ((∃ f, f.ofExecution ∧ t = s.takeFault f) ∨ CompletedBy i s t) :=
    fun h => ⟨_, h, .inl ⟨_, .inl rfl, rfl⟩⟩
  have alu : ∀ {op a b}, exec i s = aluExec op i.opcode a b s →
      ∃ t, exec i s = .next t ∧ ((∃ f, f.ofExecution ∧ t = s.takeFault f) ∨ CompletedBy i s t) := by
    intro op a b e
    obtain ⟨t, h, h'⟩ := aluExec_next op i.opcode a b s
    exact ⟨t, e.trans h, h'.imp_right fun ⟨x, y, z⟩ => ⟨x, y, z⟩⟩
  cases i with
  | hlt => exact ⟨_, rfl, .inr ⟨rfl, rfl, rfl⟩⟩
  | ldi r v =>
    rcases names_register_or_above r with ⟨i, h⟩ | h
    · exact ⟨_, execLdi_ok h v s, .inr ⟨rfl, rfl, rfl⟩⟩
    · exact index (execLdi_error h v s)
  | prn r =>
    rcases names_register_or_above r with ⟨i, h⟩ | h
    · exact ⟨_, execPrn_ok h s, .inr ⟨rfl, rfl, rfl⟩⟩
    · exact index (execPrn_error h s)
  | push r =>
    rcases names_register_or_above r with ⟨i, h⟩ | h
    · by_cases ha : 0 ≤ pushAddress s ∧ pushAddress s < 256
      · exact ⟨_, execPush_ok h ha, .inr ⟨rfl, rfl, rfl⟩⟩
      · exact address (execPush_error_address h ha)
    · exact index (execPush_error_index h s)
  | pop r =>
    rcases names_register_or_above r with ⟨i, h⟩ | h
    · by_cases ha : 0 ≤ popAddress s ∧ popAddress s < 256
      · exact ⟨_, execPop_ok h ha, .inr ⟨rfl, rfl, rfl⟩⟩
      · exact address (execPop_error_address h ha)
    · exact index (execPop_error_index h s)
  | add a b => exact alu (execAdd_eq a b s)
  | sub a b => exact alu (execSub_eq a b s)
  | mul a b => exact alu (execMul_eq a b s)
  | div a b => exact alu (execDiv_eq a b s)

end Sys2Proof.Machine
end

