-- ==== Sys2Proof/Laws/PerInstr.lean ====
section
/-! SUPPORT. Statements about every instruction as syntax, one lemma per constructor. -/

namespace Sys2Proof.Laws

/-- The first byte of an encoding carries the row's three fields, and its operand count is the number of bytes that
follow (R60, R61, R64). -/
def EncodedFields.Statement (i : Instr) : Prop :=
  ∃ b, encode i = b :: i.operands ∧ operandCountField b = i.operands.length ∧
    (operandCountField b, isAluField b, identityField b) = i.opcode.fields

theorem EncodedFields.hlt : EncodedFields.Statement .hlt := ⟨_, rfl, operandCountField_byte _, fields_of_byte _⟩
theorem EncodedFields.ldi (r v : Byte) : EncodedFields.Statement (.ldi r v) := ⟨_, rfl, operandCountField_byte _, fields_of_byte _⟩
theorem EncodedFields.prn (r : Byte) : EncodedFields.Statement (.prn r) := ⟨_, rfl, operandCountField_byte _, fields_of_byte _⟩
theorem EncodedFields.push (r : Byte) : EncodedFields.Statement (.push r) := ⟨_, rfl, operandCountField_byte _, fields_of_byte _⟩
theorem EncodedFields.pop (r : Byte) : EncodedFields.Statement (.pop r) := ⟨_, rfl, operandCountField_byte _, fields_of_byte _⟩
theorem EncodedFields.add (a b : Byte) : EncodedFields.Statement (.add a b) := ⟨_, rfl, operandCountField_byte _, fields_of_byte _⟩
theorem EncodedFields.sub (a b : Byte) : EncodedFields.Statement (.sub a b) := ⟨_, rfl, operandCountField_byte _, fields_of_byte _⟩
theorem EncodedFields.mul (a b : Byte) : EncodedFields.Statement (.mul a b) := ⟨_, rfl, operandCountField_byte _, fields_of_byte _⟩
theorem EncodedFields.div (a b : Byte) : EncodedFields.Statement (.div a b) := ⟨_, rfl, operandCountField_byte _, fields_of_byte _⟩

end Sys2Proof.Laws
end

