-- ==== Sys2Proof/Laws/Step.lean ====
section
/-! SUPPORT. What the fetch and a step can do. -/

namespace Sys2Proof.Machine

/-! ## The fetch -/

theorem fetchInstr_above {s : State} (h : 256 ≤ s.pc) : fetchInstr s = .error (.outOfBounds s.pc) := by
  simp only [fetchInstr, memRead_error s.mem (a := (s.pc : Int)) (by omega)]
  rfl

theorem fetchInstr_illegal {s : State} (h : s.pc < 256) (hs : selectOpcode (s.mem.peek s.pc) = none) :
    fetchInstr s = .error (illegalFault (illegalKind (s.mem.peek s.pc))) := by
  simp only [fetchInstr, memRead_natCast s.mem h, bind, Except.bind, decodeByte_of_none hs]

theorem operandByte_read {s : State} {count n : Nat} (hn : n ≤ count) (h : s.pc + n < 256) :
    operandByte s count n = .ok (s.mem.peek (s.pc + n)) := by
  rw [operandByte, if_pos hn, memRead_natCast s.mem h]

theorem operandByte_error {s : State} {count n : Nat} (hn : n ≤ count) (h : 256 ≤ s.pc + n) :
    operandByte s count n = .error (.outOfBounds (s.pc + n : Nat)) := by
  rw [operandByte, if_pos hn, memRead_error s.mem (by omega)]

theorem operandByte_absent (s : State) {count n : Nat} (hn : count < n) : operandByte s count n = .ok 0 :=
  if_neg (by omega)

/-- A legal opcode byte whose operand bytes all lie in memory. -/
theorem fetchInstr_legal {s : State} {op : Opcode} (hs : selectOpcode (s.mem.peek s.pc) = some op)
    (h : s.pc + op.operandCount < 256) :
    fetchInstr s = .ok (op.instr (s.mem.peek (s.pc + 1)) (s.mem.peek (s.pc + 2))) := by
  have h0 : s.pc < 256 := by omega
  simp only [fetchInstr, memRead_natCast s.mem h0, bind, Except.bind, decodeByte_of_select hs]
  rcases hc : op.operandCount with _ | _ | n
  · rw [operandByte_absent s (by omega), operandByte_absent s (by omega)]
    cases op <;> first | rfl | cases hc
  · rw [operandByte_read (by omega) (by omega), operandByte_absent s (by omega)]
    cases op <;> first | rfl | cases hc
  · rw [operandByte_read (by omega) (by omega), operandByte_read (by omega) (by omega)]
    rfl

/-- A legal opcode byte too close to the end of memory for its operand bytes: the first one missing is reported. -/
theorem fetchInstr_short {s : State} {op : Opcode} (h0 : s.pc < 256)
    (hs : selectOpcode (s.mem.peek s.pc) = some op) (h : 256 ≤ s.pc + op.operandCount) :
    fetchInstr s = .error (.outOfBounds 256) := by
  have le := operandCount_le op
  simp only [fetchInstr, memRead_natCast s.mem h0, bind, Except.bind, decodeByte_of_select hs]
  by_cases h1 : 256 ≤ s.pc + 1
  · rw [operandByte_error (by omega) h1]
    have : s.pc + 1 = 256 := by omega
    simp [this]
  · have e : s.pc + 2 = 256 := by omega
    rw [operandByte_read (by omega) (by omega), operandByte_error (by omega) (by omega), e]
    rfl

/-- Everything the fetch can do. -/
theorem fetchInstr_cases (s : State) :
    (256 ≤ s.pc ∧ fetchInstr s = .error (.outOfBounds s.pc)) ∨
      (s.pc < 256 ∧ selectOpcode (s.mem.peek s.pc) = none ∧
        fetchInstr s = .error (illegalFault (illegalKind (s.mem.peek s.pc)))) ∨
      (∃ op, s.pc < 256 ∧ selectOpcode (s.mem.peek s.pc) = some op ∧ 256 ≤ s.pc + op.operandCount ∧
        fetchInstr s = .error (.outOfBounds 256)) ∨
      (∃ op, selectOpcode (s.mem.peek s.pc) = some op ∧ s.pc + op.operandCount < 256 ∧
        fetchInstr s = .ok (op.instr (s.mem.peek (s.pc + 1)) (s.mem.peek (s.pc + 2)))) := by
  by_cases h0 : s.pc < 256
  · cases hs : selectOpcode (s.mem.peek s.pc) with
    | none => exact .inr (.inl ⟨h0, rfl, fetchInstr_illegal h0 hs⟩)
    | some op =>
      by_cases h : s.pc + op.operandCount < 256
      · exact .inr (.inr (.inr ⟨op, rfl, h, fetchInstr_legal hs h⟩))
      · exact .inr (.inr (.inl ⟨op, h0, rfl, by omega, fetchInstr_short h0 hs (by omega)⟩))
  · exact .inl ⟨by omega, fetchInstr_above (by omega)⟩

/-- An instruction that is fetched lies within memory. -/
theorem pc_of_fetchInstr_ok {s : State} {i : Instr} (h : fetchInstr s = .ok i) :
    s.pc + i.opcode.operandCount < 256 := by
  rcases fetchInstr_cases s with ⟨-, e⟩ | ⟨-, -, e⟩ | ⟨-, -, -, -, e⟩ | ⟨op, -, hop, e⟩ <;> rw [h] at e
  · cases e
  · cases e
  · cases e
  · cases e; simpa using hop

/-! ## The step -/

theorem enabled_iff (s : State) : s.enabled = true ↔ s.running = true ∧ s.fault = none := by
  simp [State.enabled]

theorem step_of_not_enabled {s : State} (h : s.enabled = false) : step s = .next s := by
  simp [step, h]

theorem step_of_fetch_ok {s : State} {i : Instr} (h : s.enabled = true) (hf : fetchInstr s = .ok i) :
    step s = exec i s := by
  simp [step, h, hf]

theorem step_of_fetch_error {s : State} {f : Fault} (h : s.enabled = true) (hf : fetchInstr s = .error f) :
    step s = .next (s.takeFault f) := by
  simp [step, h, hf]

/-- A step always ends in a next state: a stopped machine stays as it is; an enabled one runs the instruction it
fetches to its end, or takes an error in the state before the cycle. -/
theorem step_next (s : State) :
    ∃ t, step s = .next t ∧ ((s.enabled = false ∧ t = s) ∨ (s.enabled = true ∧ ∃ f, t = s.takeFault f) ∨
      (s.enabled = true ∧ ∃ i, fetchInstr s = .ok i ∧ exec i s = .next t ∧ CompletedBy i s t)) := by
  cases he : s.enabled with
  | false => exact ⟨s, step_of_not_enabled he, .inl ⟨rfl, rfl⟩⟩
  | true =>
    cases hf : fetchInstr s with
    | error f => exact ⟨_, step_of_fetch_error he hf, .inr (.inl ⟨rfl, f, rfl⟩)⟩
    | ok i =>
      obtain ⟨t, ht, h⟩ := exec_next i s
      refine ⟨t, (step_of_fetch_ok he hf).trans ht, .inr ?_⟩
      exact h.imp (fun ⟨f, _, h⟩ => ⟨rfl, f, h⟩) fun h => ⟨rfl, i, rfl, ht, h⟩

/-! ## Runs -/

theorem run_zero (s : State) : Sys2Proof.core.run 0 s = .next s := rfl

theorem run_succ {s t : State} (h : step s = .next t) (n : Nat) :
    Sys2Proof.core.run (n + 1) s = Sys2Proof.core.run n t := by
  have h' : Sys2Proof.core.step s = .next t := h
  simp only [Host.Core.run, h']

end Sys2Proof.Machine
end

