-- ==== Sys2Proof/Laws/Run.lean ====
section
/-! SUPPORT. The fetch beside the decoder of a byte sequence, and runs of several steps. -/

namespace Sys2Proof.Machine

/-! ## The bytes at the program counter -/

theorem bytesAtPc_above {s : State} (h : 256 ≤ s.pc) : s.bytesAtPc = [] := by
  simp [State.bytesAtPc, Nat.sub_eq_zero_of_le h]

theorem bytesAtPc_cons {s : State} (h : s.pc < 256) :
    s.bytesAtPc = s.mem.peek s.pc :: (List.range' (s.pc + 1) (255 - s.pc)).map s.mem.peek := by
  rw [State.bytesAtPc, show 256 - s.pc = 255 - s.pc + 1 by omega, List.range'_succ, List.map_cons]

theorem getD_bytesAfter (s : State) {n : Nat} (h : s.pc + 1 + n < 256) :
    ((List.range' (s.pc + 1) (255 - s.pc)).map s.mem.peek).getD n 0 = s.mem.peek (s.pc + 1 + n) := by
  rw [List.getD_eq_getElem?_getD, List.getElem?_map, List.getElem?_range' (by omega)]
  simp

/-- The operand bytes an opcode takes from the sequence are the ones in memory. -/
theorem instr_of_bytesAfter {s : State} {op : Opcode} (h : s.pc + op.operandCount < 256) :
    op.instr (((List.range' (s.pc + 1) (255 - s.pc)).map s.mem.peek).getD 0 0)
        (((List.range' (s.pc + 1) (255 - s.pc)).map s.mem.peek).getD 1 0) =
      op.instr (s.mem.peek (s.pc + 1)) (s.mem.peek (s.pc + 2)) := by
  by_cases h1 : op.operandCount = 0
  · cases op <;> first | rfl | cases h1
  rw [getD_bytesAfter s (by omega)]
  by_cases h2 : op.operandCount = 1
  · cases op <;> first | rfl | cases h2
  rw [getD_bytesAfter s (by omega)]

/-- The fetch and the decoder agree: what each answers in every case. -/
theorem fetch_agrees_with_decode (s : State) :
    (256 ≤ s.pc ∧ decode s.bytesAtPc = .error (.missingByte 0) ∧ fetchInstr s = .error (.outOfBounds s.pc)) ∨
      (s.pc < 256 ∧ selectOpcode (s.mem.peek s.pc) = none ∧
        decode s.bytesAtPc = .error (.illegal (illegalKind (s.mem.peek s.pc))) ∧
        fetchInstr s = .error (illegalFault (illegalKind (s.mem.peek s.pc)))) ∨
      (∃ op n, s.pc < 256 ∧ selectOpcode (s.mem.peek s.pc) = some op ∧
        decode s.bytesAtPc = .error (.missingByte n) ∧ fetchInstr s = .error (.outOfBounds 256)) ∨
      (∃ i rest, selectOpcode (s.mem.peek s.pc) = some i.opcode ∧
        decode s.bytesAtPc = .ok (i, rest) ∧ fetchInstr s = .ok i) := by
  have len : ((List.range' (s.pc + 1) (255 - s.pc)).map s.mem.peek).length = 255 - s.pc := by simp
  rcases fetchInstr_cases s with ⟨h, e⟩ | ⟨h, hs, e⟩ | ⟨op, h, hs, hop, e⟩ | ⟨op, hs, hop, e⟩
  · exact .inl ⟨h, by rw [bytesAtPc_above h]; rfl, e⟩
  · exact .inr (.inl ⟨h, hs, by rw [bytesAtPc_cons h, decode_cons_of_none hs], e⟩)
  · refine .inr (.inr (.inl ⟨op, 255 - s.pc + 1, h, hs, ?_, e⟩))
    rw [bytesAtPc_cons h, decode_cons_of_select hs, len, if_pos (by omega)]
  · refine .inr (.inr (.inr ⟨op.instr (s.mem.peek (s.pc + 1)) (s.mem.peek (s.pc + 2)),
      ((List.range' (s.pc + 1) (255 - s.pc)).map s.mem.peek).drop op.operandCount, by simpa using hs, ?_, e⟩))
    rw [bytesAtPc_cons (by omega), decode_cons_of_select hs, len, if_neg (by omega), instr_of_bytesAfter hop]

/-- Taking an error and latching its kind are one. -/
theorem takeFault_eq_latched (s : State) (f : Fault) : s.takeFault f = s.latched f.kind := rfl

/-! ## Runs -/

theorem run_next (n : Nat) (s : State) : ∃ t, Sys2Proof.core.run n s = .next t := by
  induction n generalizing s with
  | zero => exact ⟨s, rfl⟩
  | succ n ih =>
    obtain ⟨t, ht, -⟩ := step_next s
    rw [run_succ ht]
    exact ih t

theorem run_add (m n : Nat) {s t : State} (h : Sys2Proof.core.run m s = .next t) :
    Sys2Proof.core.run (m + n) s = Sys2Proof.core.run n t := by
  induction m generalizing s with
  | zero => cases h; simp
  | succ m ih =>
    obtain ⟨u, hu, -⟩ := step_next s
    rw [run_succ hu] at h
    rw [show m + 1 + n = m + n + 1 by omega, run_succ hu, ih h]

/-- A property that every step keeps holds after every number of steps. -/
theorem run_keeps {P : State → Prop} (keep : ∀ s t, P s → step s = .next t → P t) (n : Nat) {s t : State}
    (hs : P s) (h : Sys2Proof.core.run n s = .next t) : P t := by
  induction n generalizing s with
  | zero => cases h; exact hs
  | succ n ih =>
    obtain ⟨u, hu, -⟩ := step_next s
    rw [run_succ hu] at h
    exact ih (keep s u hs hu) h

end Sys2Proof.Machine
end

