-- ==== Sys2Proof/Machine/Toolchain.lean ====
section
/-! DEFINITION. The three notations the spec writes down around the core: the rendering of the output stream
(spec/41_ldi_prn.md R103), the image text (spec/30_encoding.md R74) and the assembly notation (R75). No rule of the
machine depends on them (spec/00_scope.md R5; log 13). -/

namespace Sys2Proof.Machine

/-- A decimal numeral: `-` if negative, then the digits of the absolute value without leading zeros (R103). -/
def renderValue : Int → List Char
  | .ofNat n => Nat.toDigits 10 n
  | .negSucc n => '-' :: Nat.toDigits 10 (n + 1)

/-- The text a consumer writes for the output stream: each value and a line feed (R103). -/
def renderOut (out : List Int) : List Char := out.flatMap fun v => renderValue v ++ ['\n']

/-- Eight characters `0` or `1`, the first of them bit 7 (R74, R15). -/
def parseLiteral (text : List Char) : Option Byte :=
  if text.length = 8 ∧ text.all (fun c => c == '0' || c == '1') then
    some (text.foldl (fun b c => b * 2 + (if c == '1' then 1 else 0)) 0)
  else none

/-- One line of image text: the part before a comment, without the blanks around it, is empty or one literal (R74). The
outer `none` is a malformed line, the inner one a line that contributes no byte. -/
def parseLine (line : List Char) : Option (Option Byte) :=
  let blank := fun c : Char => c == ' ' || c == '\t' || c == '\r'
  let body := ((line.takeWhile (· != '#')).dropWhile blank).reverse.dropWhile blank |>.reverse
  if body = [] then some none else (parseLiteral body).map some

/-- The image bytes of the lines of an image text, in file order (R74); `none` is the loader's ImageLoadError (R146). -/
def parseImage (lines : List (List Char)) : Option (List Byte) :=
  (lines.mapM parseLine).map (·.filterMap id)

/-- A register in assembly notation: `R` and the decimal index (R75). -/
def showReg (r : Byte) : String := String.ofList ('R' :: Nat.toDigits 10 r.toNat)

/-- An instruction in assembly notation, the destination first (R75). -/
def showInstr : Instr → String
  | .hlt => "HLT"
  | .ldi r v => "LDI " ++ showReg r ++ "," ++ String.ofList (Nat.toDigits 10 v.toNat)
  | .prn r => "PRN " ++ showReg r
  | .push r => "PUSH " ++ showReg r
  | .pop r => "POP " ++ showReg r
  | .add a b => "ADD " ++ showReg a ++ "," ++ showReg b
  | .sub a b => "SUB " ++ showReg a ++ "," ++ showReg b
  | .mul a b => "MUL " ++ showReg a ++ "," ++ showReg b
  | .div a b => "DIV " ++ showReg a ++ "," ++ showReg b

end Sys2Proof.Machine
end

