-- ==== Sys2Proof/Tests/Slice0.lean ====
section
/-! SUPPORT. The model's own tests. Expected results come from spec/95_test_vectors.md (the vector is named in each
comment) or from the encodings of spec/30_encoding.md, written out bit by bit. The last part shows, for every statement
that has hypotheses, a concrete state and operands that meet them. -/

namespace Sys2Proof.Tests

open Sys2Proof.Machine

/-! ## WellFormed refuses an ill-formed term for each of its checks -/

theorem test_wf_ldi : (Instr.ldi 8 0).wellFormed = false := by decide
theorem test_wf_prn : (Instr.prn 255).wellFormed = false := by decide
theorem test_wf_push : (Instr.push 9).wellFormed = false := by decide
theorem test_wf_pop : (Instr.pop 16).wellFormed = false := by decide
theorem test_wf_add_first : (Instr.add 8 0).wellFormed = false := by decide
theorem test_wf_add_second : (Instr.add 0 8).wellFormed = false := by decide
theorem test_wf_sub_first : (Instr.sub 8 0).wellFormed = false := by decide
theorem test_wf_sub_second : (Instr.sub 0 8).wellFormed = false := by decide
theorem test_wf_mul_first : (Instr.mul 8 0).wellFormed = false := by decide
theorem test_wf_mul_second : (Instr.mul 0 8).wellFormed = false := by decide
theorem test_wf_div_first : (Instr.div 8 0).wellFormed = false := by decide
theorem test_wf_div_second : (Instr.div 0 8).wellFormed = false := by decide

/-- The immediate of LDI is no register index, and 7 is one (R142, R24). -/
theorem test_wf_accepts : (Instr.ldi 7 255).wellFormed = true := by decide

/-! ## Decoding, from the encodings of R62 and R64 -/

theorem test_decode_hlt : decode [0b00000001] = .ok (.hlt, []) := by decide
theorem test_decode_ldi : decode [0b10000010, 0b00000000, 0b00001000] = .ok (.ldi 0 8, []) := by decide
theorem test_decode_prn : decode [0b01000111, 0b00000011] = .ok (.prn 3, []) := by decide
theorem test_decode_push : decode [0b01000101, 0b00000111] = .ok (.push 7, []) := by decide
theorem test_decode_pop : decode [0b01000110, 0b00000001, 0xFF] = .ok (.pop 1, [0xFF]) := by decide
theorem test_decode_add : decode [0b10100000, 0b00000001, 0b00000010] = .ok (.add 1 2, []) := by decide
theorem test_decode_sub : decode [0b10100001, 0b00000001, 0b00000010] = .ok (.sub 1 2, []) := by decide
theorem test_decode_mul : decode [0b10100010, 0b00000001, 0b00000010] = .ok (.mul 1 2, []) := by decide
theorem test_decode_div : decode [0b10100011, 0b00000001, 0b00000010] = .ok (.div 1 2, []) := by decide

/-- T-DEC-10, T-DEC-12, T-DEC-14, T-DEC-21, T-DEC-23, T-DEC-25. -/
theorem test_decode_illegal :
    [0x00, 0x20, 0x41, 0xA4, 0xC1, 0xFF].map decodeByte =
      [.error (.unrecognizedOpcode 0x00), .error (.unsupportedOperation 0x20), .error (.unrecognizedOpcode 0x41),
       .error (.unsupportedOperation 0xA4), .error (.unrecognizedOpcode 0xC1), .error (.unsupportedOperation 0xFF)] := by
  decide

theorem test_decode_truncated : decode [0x82, 0x00] = .error (.missingByte 2) := by decide

/-- Bit 0 of a table word is the opcode byte's; bits from `nbits` on are 0. -/
theorem test_table_word : decodeTableWord 8 0xFFFF82 = some (.ldi 0 0) ∧ decodeTableWord 24 0x0902A3 = some (.div 2 9) := by
  decide

/-! ## Single steps -/

/-- A machine of a given width whose registers are given and whose next bytes are `bytes`, from `pc` on. -/
def at_ (pc : Nat) (w : RegWidth) (regs : RegFile) (bytes : List Byte) : State :=
  ({ State.resetWith ⟨w, 244⟩ with pc := pc, regs := regs } : State).placeAtPc bytes

/-- What one step leaves, seen through `f`. -/
def after {α : Type} (s : State) (f : State → α) : Option α :=
  match step s with
  | .next t => some (f t)
  | .fault _ => none
  | .refused _ => none

/-- T-CYC-1. -/
theorem test_hlt : after (State.reset.withFetchWord 8 0x01) (fun t => (t.pc, t.running, t.fault)) =
    some (1, false, none) := by decide

/-- T-PC-1: HLT at address 255. -/
theorem test_hlt_at_top : after (at_ 255 .unbounded (.replicate 8 0) [0x01]) (fun t => (t.pc, t.running)) =
    some (256, false) := by decide

/-- T-LDI-2: zero extension. -/
theorem test_ldi : after (at_ 0 (.tenPlus 54) (.replicate 8 0) [0x82, 3, 0xFF]) (fun t => (t.pc, t.regs)) =
    some (3, #v[0, 0, 0, 255, 0, 0, 0, 0]) := by decide

/-- T-LDI-7: the index is not reduced. -/
theorem test_ldi_index : after (at_ 0 (.tenPlus 54) (.replicate 8 0) [0x82, 0xFF, 1])
    (fun t => (t.pc, t.regs, t.fault)) = some (0, .replicate 8 0, some .invalidRegister) := by decide

/-- T-PRN-4: the whole signed value. -/
theorem test_prn : after (at_ 0 (.tenPlus 54) #v[0, -3, 0, 0, 0, 0, 0, 0] [0x47, 1]) (fun t => (t.pc, t.out)) =
    some (2, [-3]) := by decide

/-- T-PRN-6. -/
theorem test_prn_index : after (at_ 0 (.tenPlus 54) (.replicate 8 0) [0x47, 8]) (fun t => (t.pc, t.out, t.fault)) =
    some (0, [], some .invalidRegister) := by decide

/-- T-ST-5: PUSH R7 stores the decremented stack pointer. -/
theorem test_push_r7 : after (State.reset.placeAtPc [0x45, 7]) (fun t => (t.pc, t.reg 7, t.mem.peek 243)) =
    some (2, 243, 243) := by decide

/-- T-ST-3: stack overflow leaves register 7. -/
theorem test_push_overflow : after (at_ 0 (.tenPlus 54) #v[77, 0, 0, 0, 0, 0, 0, 0] [0x45, 0])
    (fun t => (t.pc, t.reg 7, t.fault)) = some (0, 0, some .outOfBounds) := by decide

/-- T-ST-6: POP R7 leaves the byte plus one. The byte at address 2 is the popped one. -/
theorem test_pop_r7 : after (at_ 0 (.tenPlus 54) #v[0, 0, 0, 0, 0, 0, 0, 2] [0x46, 7, 100])
    (fun t => (t.pc, t.reg 7)) = some (2, 101) := by decide

/-- T-ST-4: POP at 255 is legal and leaves 256. -/
theorem test_pop_top : after (at_ 0 (.tenPlus 54) #v[9, 0, 0, 0, 0, 0, 0, 255] [0x46, 0])
    (fun t => (t.reg 0, t.reg 7, t.fault)) = some (0, 256, none) := by decide

/-- T-ADD-9: the smallest width wraps. -/
theorem test_add_wraps : after (at_ 0 (.tenPlus 0) #v[511, 1, 0, 0, 0, 0, 0, 0] [0xA0, 0, 1])
    (fun t => (t.pc, t.reg 0, t.reg 1)) = some (3, -512, 1) := by decide

/-- T-ADD-10: unbounded registers do not wrap. -/
theorem test_add_unbounded : after (at_ 0 .unbounded #v[9223372036854775807, 1, 0, 0, 0, 0, 0, 0] [0xA0, 0, 1])
    (·.reg 0) = some 9223372036854775808 := by decide

/-- T-SUB-2. -/
theorem test_sub_negative : after (at_ 0 (.tenPlus 54) #v[7, 10, 0, 0, 0, 0, 0, 0] [0xA1, 0, 1]) (·.reg 0) =
    some (-3) := by decide

/-- T-SUB-5. -/
theorem test_sub_wraps : after (at_ 0 (.tenPlus 6) #v[-32768, 1, 0, 0, 0, 0, 0, 0] [0xA1, 0, 1]) (·.reg 0) =
    some 32767 := by decide

/-- T-MUL-3. -/
theorem test_mul_wraps : after (at_ 0 (.tenPlus 6) #v[255, 255, 0, 0, 0, 0, 0, 0] [0xA2, 0, 1]) (·.reg 0) =
    some (-511) := by decide

/-- T-MUL-8: one register twice. -/
theorem test_mul_square : after (at_ 0 (.tenPlus 54) #v[0, 0, 0, 0, 12, 0, 0, 0] [0xA2, 4, 4]) (·.reg 4) =
    some 144 := by decide

/-- T-DIV-4: toward zero. -/
theorem test_div_truncates : after (at_ 0 (.tenPlus 54) #v[-7, 2, 0, 0, 0, 0, 0, 0] [0xA3, 0, 1]) (·.reg 0) =
    some (-3) := by decide

/-- T-DIV-14. -/
theorem test_div_zero : after (at_ 0 (.tenPlus 54) (.replicate 8 0) [0xA3, 0, 1]) (fun t => (t.pc, t.fault)) =
    some (0, some .divideByZero) := by decide

/-! ## The order of checks, and what no instruction does -/

/-- T-FLT-1, T-FLT-2, T-FLT-3, T-FLT-4. -/
theorem test_fetch_errors :
    [at_ 256 (.tenPlus 54) (.replicate 8 0) [], at_ 255 (.tenPlus 54) (.replicate 8 0) [0xA7],
      at_ 255 (.tenPlus 54) (.replicate 8 0) [0xC0], at_ 254 (.tenPlus 54) (.replicate 8 0) [0x82, 8]].map
        (fun s => after s (·.fault)) =
      [some (some .outOfBounds), some (some .unsupportedOperation), some (some .unrecognizedOpcode),
        some (some .outOfBounds)] := by decide

/-- T-ALU-F1, T-ALU-F3. -/
theorem test_first_index_reported : regPair 8 9 = .error (.invalidRegister 8) ∧
    after (at_ 0 (.tenPlus 54) (.replicate 8 0) [0xA3, 9, 1]) (·.fault) = some (some .invalidRegister) := by decide

/-- T-CYC-2, T-CYC-3: a stopped machine stands still. -/
theorem test_stopped : after { State.reset with running := false } id = some { State.reset with running := false } ∧
    after { State.reset with fault := some .divideByZero } id =
      some { State.reset with fault := some .divideByZero } := by decide

/-- S9: a truncated image launches, and its first cycle reads zeros for the operands. -/
theorem test_truncated_image : (launch referenceConfig [0x82]).bind (fun s => after s (fun t => (t.pc, t.fault))) =
    some (3, none) := by decide

/-- T-CYC-6: reset clears what the loader wrote. -/
theorem test_reset_clears : (State.reset.placeAtPc [0x82, 0, 8, 1]).hostReset = State.reset := by decide

/-! ## The notations around the core -/

/-- R103: the rule's own example. -/
theorem test_render : renderOut [8, -3, 0] = ['8', '\n', '-', '3', '\n', '0', '\n'] := by decide

/-- R74, S10. -/
theorem test_image_text : parseImage ["10000010 # LDI R0,8".toList, "".toList, "# only a comment".toList,
    "00000001 # HLT".toList] = some [0x82, 0x01] ∧ parseImage ["1000001".toList] = none := by decide

/-- R75. -/
theorem test_assembly : showInstr (.ldi 0 8) = "LDI R0,8" := by decide

/-! ## Witnesses: states and operands that meet the hypotheses of the statements -/

/-- A machine about to run `bytes` from address 0, its registers 1 to 8. -/
def ready (bytes : List Byte) : State := at_ 0 (.tenPlus 54) #v[1, 2, 3, 4, 5, 6, 7, 8] bytes

theorem ready_inv (bytes : List Byte) (h : ((ready bytes).mem.wf) = true) : (ready bytes).Inv where
  mem_wf := h
  regs_in_range := by
    show ∀ i : Fin 8, inRange (.tenPlus 54) (#v[1, 2, 3, 4, 5, 6, 7, 8] : RegFile)[i] = true
    decide
  out_in_range := nofun
  pc_le := Nat.zero_le _
  fault_running := fun _ => rfl

/-- StepRunsDecodedInstruction, CycleAllOrNothing (a completed cycle), at memory's last place for the instruction. -/
theorem witness_step_runs : let s := at_ 253 (.tenPlus 54) (.replicate 8 1) [0xA3, 0, 1]
    s.enabled = true ∧ decode s.bytesAtPc = .ok (.div 0 1, []) := by decide

/-- StepTakesErrorOfFetch, its three clauses, the third at each offset; OutOfBoundsExactly, its first three causes;
UnsupportedOperationExactly and UnrecognizedOpcodeExactly at the last address. -/
theorem witness_fetch_errors :
    let s := fun pc bytes => at_ pc (.tenPlus 54) (.replicate 8 0) bytes
    (∀ pc bytes, (s pc bytes).enabled = true) ∧
    decode (s 255 [0xFF]).bytesAtPc = .error (.illegal (.unsupportedOperation 0xFF)) ∧
    decode (s 255 [0x00]).bytesAtPc = .error (.illegal (.unrecognizedOpcode 0x00)) ∧
    decode (s 256 []).bytesAtPc = .error (.missingByte 0) ∧
    decode (s 255 [0x45]).bytesAtPc = .error (.missingByte 1) ∧
    decode (s 254 [0x82, 0]).bytesAtPc = .error (.missingByte 2) :=
  ⟨fun _ _ => rfl, by decide, by decide, by decide, by decide, by decide⟩

/-- StoppedStaysStopped: a Halted and a Faulted machine. -/
theorem witness_stopped : ({ State.reset with running := false } : State).enabled = false ∧
    (State.reset.latched .outOfBounds).enabled = false := by decide

/-- EveryRunEnds, StepKeepsInvariant: a state with the invariant that can step. -/
theorem witness_inv : (ready [0x45, 0]).Inv ∧ ∃ t, step (ready [0x45, 0]) = .next t :=
  ⟨ready_inv _ (by decide), _, rfl⟩

/-- NoAddressExecutedTwice: two states of one run, both enabled. -/
theorem witness_run : ∃ t u, Sys2Proof.core.run 0 (ready [0x47, 0, 0x47, 0]) = .next t ∧
    Sys2Proof.core.run 1 (ready [0x47, 0, 0x47, 0]) = .next u ∧ t.enabled = true ∧ u.enabled = true :=
  ⟨_, _, rfl, rfl, by decide, by decide⟩

/-- LaunchMeetsInvariant, LaunchState: the longest image that fits and the shortest that does not. -/
theorem witness_image : (List.replicate 256 (0 : Byte)).length ≤ 256 ∧ 256 < (List.replicate 257 (0 : Byte)).length := by
  rw [List.length_replicate, List.length_replicate]
  decide

/-- HltHalts: the last address, and the first above it. -/
theorem witness_hlt : let s := at_ 255 (.tenPlus 54) (.replicate 8 0) [0x01]
    s.enabled = true ∧ s.pc ≤ 255 ∧ s.mem.peek s.pc = 0b00000001 ∧
      255 < (at_ 256 (.tenPlus 54) (.replicate 8 0) []).pc := by decide

/-- LdiLoadsImmediate, PrnEmitsRegister, RepeatedPrnPrintsLoadedValue, AddSubMulWrapExactResult, RegisterFileGetSet: the
first and the last register; and the first index that names none. -/
theorem witness_names : (0 : Byte).toNat = (0 : Fin 8).val ∧ (7 : Byte).toNat = (7 : Fin 8).val ∧
    8 ≤ (8 : Byte).toNat := by decide

/-- PushStores: the lowest and the highest address a PUSH can store to. -/
theorem witness_push : ∀ sp : Int, sp = 1 ∨ sp = 256 →
    let s := (ready []).setReg 7 sp
    s.mem.wf = true ∧ 0 ≤ wrapW s.config.width (s.reg 7 - 1) ∧ wrapW s.config.width (s.reg 7 - 1) ≤ 255 := by
  rintro _ (rfl | rfl) <;> decide

/-- PushTraps: a bad index; the stack pointers just outside, 0 and 257, each in the register range. -/
theorem witness_push_traps : 8 ≤ (255 : Byte).toNat ∧ ∀ sp : Int, sp = 0 ∨ sp = 257 →
    let s := (ready []).setReg 7 sp
    (7 : Byte).toNat ≤ 7 ∧ ¬ (0 ≤ pushAddress s ∧ pushAddress s ≤ 255) ∧ inRange s.config.width (s.reg 7) = true := by
  refine ⟨by decide, ?_⟩
  rintro _ (rfl | rfl) <;> decide

/-- PopLoads: the lowest and the highest address a POP can load from. -/
theorem witness_pop : ∀ a : Nat, a = 0 ∨ a = 255 → ((ready []).setReg 7 a).reg 7 = (a : Int) ∧ a ≤ 255 := by
  rintro _ (rfl | rfl) <;> decide

/-- PopTraps: the stack pointers just outside, -1 and 256. -/
theorem witness_pop_traps : ∀ sp : Int, sp = -1 ∨ sp = 256 →
    (7 : Byte).toNat ≤ 7 ∧ ¬ (0 ≤ ((ready []).setReg 7 sp).reg 7 ∧ ((ready []).setReg 7 sp).reg 7 ≤ 255) := by
  rintro _ (rfl | rfl) <;> decide

/-- PushPopRoundTrip: both ends of the stack pointer's range; a value in and a value out of [0, 255]; register 7 or
another as either operand. -/
theorem witness_push_pop : ∀ sp : Int, sp = 1 ∨ sp = 256 →
    let s := ((ready []).setReg 7 sp).setReg 1 300
    s.mem.wf = true ∧ 1 ≤ s.reg 7 ∧ s.reg 7 ≤ 256 ∧ 0 ≤ s.reg 0 ∧ s.reg 0 ≤ 255 ∧ 255 < s.reg 1 ∧
      (6 : Byte).toNat = (6 : Fin 8).val ∧ (7 : Byte).toNat = (7 : Fin 8).val := by
  rintro _ (rfl | rfl) <;> decide

/-- StoreSeenByNextFetch: P5 in small: the PUSH at 0 stores to address 2, the next program counter. -/
theorem witness_store_seen : let s := (ready [0x45, 0]).setReg 7 3
    s.mem.wf = true ∧ s.fault = none ∧
      ∃ t, exec (.push 0) s = .next t ∧ t.fault = none ∧ pushAddress s = ((t.pc + 0 : Nat) : Int) :=
  ⟨by decide, by decide, _, rfl, by decide, by decide⟩

/-- DivTruncates: a divisor other than 0. -/
theorem witness_div : (ready []).reg 1 ≠ 0 := by decide

/-- OutOfBoundsExactly: its causes (d) and (e), in memory's last possible place for the instruction. -/
theorem witness_stack_out_of_bounds :
    let s := at_ 254 (.tenPlus 54) (.replicate 8 0) [0x45, 7]
    let u := at_ 254 (.tenPlus 54) #v[0, 0, 0, 0, 0, 0, 0, 256] [0x46, 7]
    s.enabled = true ∧ u.enabled = true ∧
      (s.pc ≤ 254 ∧ s.mem.peek s.pc = 0x45 ∧ (s.mem.peek (s.pc + 1)).toNat ≤ 7 ∧
        ¬ (0 ≤ wrapW s.config.width (s.reg 7 - 1) ∧ wrapW s.config.width (s.reg 7 - 1) ≤ 255)) ∧
      (u.pc ≤ 254 ∧ u.mem.peek u.pc = 0x46 ∧ (u.mem.peek (u.pc + 1)).toNat ≤ 7 ∧
        ¬ (0 ≤ u.reg 7 ∧ u.reg 7 ≤ 255)) := by decide

/-- IllegalByteKinds, UnsupportedOperationExactly, UnrecognizedOpcodeExactly, ZeroByteIsUnrecognized: bytes that meet the conditions at the
last address. -/
theorem witness_illegal : ∀ b : Byte, b = 0xFF ∨ b = 0x00 →
    let s := at_ 255 (.tenPlus 54) (.replicate 8 0) [b]
    s.enabled = true ∧ s.pc ≤ 255 ∧ s.mem.peek s.pc = b ∧ selectOpcode (s.mem.peek s.pc) = none := by
  rintro _ (rfl | rfl) <;> decide

/-- InvalidRegisterExactly, DivideByZeroExactly, IllegalByteKinds: a state with an empty latch in which instructions raise
the errors and one completes; the smallest index that names no register, first and second; DIV with both a bad first
operand and a zero divisor (T-ALU-F1). -/
theorem witness_raised : let s := (ready []).setReg 1 0
    s.fault = none ∧ 8 ≤ (8 : Byte).toNat ∧ (7 : Byte).toNat ≤ 7 ∧
    (∃ t, exec (.add 8 0) s = .next t ∧ t.fault = some .invalidRegister) ∧
    (∃ t, exec (.div 0 1) s = .next t ∧ t.fault = some .divideByZero) ∧
    (∃ t, exec (.div 1 0) s = .next t ∧ t.fault = none) ∧
    (1 : Byte).toNat = (1 : Fin 8).val ∧ s.reg 1 = 0 ∧
    (∃ t, exec (.div 8 1) s = .next t ∧ t.fault = some .invalidRegister) :=
  ⟨rfl, by decide, by decide, ⟨_, rfl, rfl⟩, ⟨_, rfl, rfl⟩, ⟨_, rfl, rfl⟩, by decide, by decide, ⟨_, rfl, rfl⟩⟩

/-- ExecFrame, RegistersReadAndWritten: an instruction that completes, with a register it writes without reading, and one
it neither reads nor writes. -/
theorem witness_frame : readsReg (.pop 0) 0 = false ∧ writesReg (.pop 0) 0 = true ∧
    readsReg (.pop 0) 1 = false ∧ writesReg (.pop 0) 1 = false ∧
    ∃ t, exec (.pop 0) (ready []) = .next t ∧ t.fault = none := ⟨by decide, by decide, by decide, by decide, _, rfl, by decide⟩

/-- OnlyPushWritesMemory: a step that changes a cell. -/
theorem witness_memory_changes : ∃ t, step (ready [0x45, 0]) = .next t ∧
    t.mem.peek 7 ≠ (ready [0x45, 0]).mem.peek 7 := ⟨_, rfl, by decide⟩

/-- RunningClearedOnlyByHlt: a step that changes the running flag, and a state in which it is false. -/
theorem witness_running : ∃ t, step (ready [0x01]) = .next t ∧ t.running ≠ (ready [0x01]).running ∧ t.running = false :=
  ⟨_, rfl, by decide, by decide⟩

/-- OutputAppendedOnlyByPrn, ParametersNeverChange: a step, and a run of one step. -/
theorem witness_output : ∃ t, step (ready [0x47, 7]) = .next t ∧ t.out = [8] ∧
    Sys2Proof.core.run 1 (ready [0x47, 7]) = .next t := ⟨_, rfl, by decide, rfl⟩

/-- MemReadInBounds, MemReadAfterWrite: canonical memory, both ends of the range, and the addresses just outside. -/
theorem witness_memory : Memory.wf [(0, 1), (255, 2)] = true ∧ memRead [(0, 1), (255, 2)] 255 = .ok 2 ∧
    memRead [(0, 1), (255, 2)] 256 = .error (.outOfBounds 256) ∧
    memRead [(0, 1), (255, 2)] (-1) = .error (.outOfBounds (-1)) := by decide

/-- CanonicalMemoryUnique: a list that reads like the empty memory but is not canonical is refused by the form. -/
theorem witness_canonical : Memory.wf [] = true ∧ Memory.wf [(3, 0)] = false ∧ Memory.wf [(5, 1), (3, 1)] = false ∧
    Memory.wf [(256, 1)] = false := by decide

/-- QuotientHasRemainderOfDividendSign: R127's rows with opposite signs. -/
theorem witness_quotient : aluResult .div (-7) 2 = .ok (-3) ∧ aluResult .div 7 (-2) = .ok (-3) ∧
    aluResult .div 5 0 = .error .divideByZero := by decide

/-- WrapIsUniqueRepresentative: a value outside the smallest register and its representative (T-MUL-4). -/
theorem witness_wrap : wrapW (.tenPlus 0) 65025 = -511 ∧ (2 : Int) ^ (10 + 0) ∣ 65025 - -511 := by decide

end Sys2Proof.Tests
end

section
/-! SUPPORT. An update of the state that no instruction can see: exec answers the same, carried through the update. -/

namespace Sys2Proof.Machine

/-- The outcome with its next state updated. -/
def mapNext (g : State → State) : Host.Outcome State Fault Refusal → Host.Outcome State Fault Refusal
  | .next t => .next (g t)
  | .fault f => .fault f
  | .refused r => .refused r

@[simp] theorem mapNext_next (g : State → State) (t : State) : mapNext g (.next t) = .next (g t) := rfl

/-- An update that leaves alone all that the fetch and the instructions read, and commutes with every write but
HLT's. -/
structure Unseen (g : State → State) : Prop where
  mem       : ∀ s, (g s).mem = s.mem
  pc        : ∀ s, (g s).pc = s.pc
  reg       : ∀ s i, (g s).reg i = s.reg i
  wrap      : ∀ s v, (g s).wrap v = s.wrap v
  setReg    : ∀ s i v, (g s).setReg i v = g (s.setReg i v)
  setMem    : ∀ s m, (g s).setMem m = g (s.setMem m)
  advance   : ∀ s op, (g s).advance op = g (s.advance op)
  emit      : ∀ s v, (g s).emit v = g (s.emit v)
  takeFault : ∀ s f, (g s).takeFault f = g (s.takeFault f)

namespace Unseen

variable {g : State → State} (hg : Unseen g)
include hg

theorem fetchInstr_eq (s : State) : fetchInstr (g s) = fetchInstr s := by
  simp only [fetchInstr, operandByte, hg.mem, hg.pc]

theorem pushAddress_eq (s : State) : pushAddress (g s) = pushAddress s := by
  rw [pushAddress, pushAddress, hg.wrap, hg.reg]

theorem popAddress_eq (s : State) : popAddress (g s) = popAddress s := hg.reg s 7

theorem popped_eq (s : State) (i : Fin 8) : popped (g s) i = g (popped s i) := by
  simp only [popped, hg.mem, hg.popAddress_eq, hg.setReg, hg.wrap, hg.reg, hg.advance]

theorem execLdi_eq (r v : Byte) (s : State) : execLdi r v (g s) = mapNext g (execLdi r v s) := by
  rcases names_register_or_above r with ⟨i, h⟩ | h
  · simp only [execLdi_ok h, mapNext_next, hg.setReg, hg.advance]
  · simp only [execLdi_error h, mapNext_next, hg.takeFault]

theorem execPrn_eq (r : Byte) (s : State) : execPrn r (g s) = mapNext g (execPrn r s) := by
  rcases names_register_or_above r with ⟨i, h⟩ | h
  · simp only [execPrn_ok h, mapNext_next, hg.reg, hg.emit, hg.advance]
  · simp only [execPrn_error h, mapNext_next, hg.takeFault]

theorem execPush_eq (r : Byte) (s : State) : execPush r (g s) = mapNext g (execPush r s) := by
  rcases names_register_or_above r with ⟨i, h⟩ | h
  · by_cases ha : 0 ≤ pushAddress s ∧ pushAddress s < 256
    · rw [execPush_ok h ha, execPush_ok h (by rwa [hg.pushAddress_eq])]
      simp only [mapNext_next, hg.pushAddress_eq, hg.mem, hg.setReg, hg.reg, hg.setMem, hg.advance]
    · rw [execPush_error_address h ha, execPush_error_address h (by rwa [hg.pushAddress_eq])]
      simp only [mapNext_next, hg.pushAddress_eq, hg.takeFault]
  · simp only [execPush_error_index h, mapNext_next, hg.takeFault]

theorem execPop_eq (r : Byte) (s : State) : execPop r (g s) = mapNext g (execPop r s) := by
  rcases names_register_or_above r with ⟨i, h⟩ | h
  · by_cases ha : 0 ≤ popAddress s ∧ popAddress s < 256
    · rw [execPop_ok h ha, execPop_ok h (by rwa [hg.popAddress_eq]), hg.popped_eq, mapNext_next]
    · rw [execPop_error_address h ha, execPop_error_address h (by rwa [hg.popAddress_eq])]
      simp only [mapNext_next, hg.popAddress_eq, hg.takeFault]
  · simp only [execPop_error_index h, mapNext_next, hg.takeFault]

theorem aluExec_eq (op : AluOp) (opcode : Opcode) (a b : Byte) (s : State) :
    aluExec op opcode a b (g s) = mapNext g (aluExec op opcode a b s) := by
  rcases names_register_or_above a with ⟨i, ha⟩ | ha
  · rcases names_register_or_above b with ⟨j, hb⟩ | hb
    · have read : aluResult op ((g s).reg i) ((g s).reg j) = aluResult op (s.reg i) (s.reg j) := by
        rw [hg.reg, hg.reg]
      cases hv : aluResult op (s.reg i) (s.reg j) with
      | ok v =>
        rw [aluExec_ok opcode ha hb hv, aluExec_ok opcode ha hb (read.trans hv)]
        simp only [mapNext_next, hg.wrap, hg.setReg, hg.advance]
      | error f =>
        rw [aluExec_error_result opcode ha hb hv, aluExec_error_result opcode ha hb (read.trans hv), hg.takeFault,
          mapNext_next]
    · simp only [aluExec_error_right op opcode ha hb, mapNext_next, hg.takeFault]
  · simp only [aluExec_error_left op opcode b ha, mapNext_next, hg.takeFault]

/-- Every instruction but HLT, which writes the running flag, carries an unseen update through. -/
theorem exec_eq {i : Instr} (hi : i ≠ .hlt) (s : State) : exec i (g s) = mapNext g (exec i s) := by
  cases i with
  | hlt => exact absurd rfl hi
  | ldi r v => exact hg.execLdi_eq r v s
  | prn r => exact hg.execPrn_eq r s
  | push r => exact hg.execPush_eq r s
  | pop r => exact hg.execPop_eq r s
  | add a b => simpa only [exec, execAdd_eq] using hg.aluExec_eq .add .add a b s
  | sub a b => simpa only [exec, execSub_eq] using hg.aluExec_eq .sub .sub a b s
  | mul a b => simpa only [exec, execMul_eq] using hg.aluExec_eq .mul .mul a b s
  | div a b => simpa only [exec, execDiv_eq] using hg.aluExec_eq .div .div a b s

end Unseen

end Sys2Proof.Machine
end

section
/-! The running flag (spec/10_state.md R31). -/

namespace Sys2Proof.Machine

/-- The state with the running flag at `b`. -/
def State.withRunning (b : Bool) (s : State) : State := { s with running := b }

theorem unseen_withRunning (b : Bool) : Unseen (State.withRunning b) where
  mem _ := rfl
  pc _ := rfl
  reg _ _ := rfl
  wrap _ _ := rfl
  setReg _ _ _ := rfl
  setMem _ _ := rfl
  advance _ _ := rfl
  emit _ _ := rfl
  takeFault _ _ := rfl

/-- HLT clears the flag whatever it was; every other instruction leaves it as it was. -/
theorem exec_withRunning {i : Instr} {s t : State} (b : Bool) (h : exec i s = .next t) :
    exec i (s.withRunning b) = .next (t.withRunning (if i = .hlt then false else b)) := by
  by_cases hi : i = .hlt
  · subst hi
    cases h
    rfl
  · rw [(unseen_withRunning b).exec_eq hi, h, mapNext_next, if_neg hi]

theorem running_of_exec {i : Instr} {s t : State} (h : exec i s = .next t) :
    t.running = if i = .hlt then false else s.running := by
  have same : exec i s = .next (t.withRunning (if i = .hlt then false else s.running)) := exec_withRunning s.running h
  exact congrArg State.running (Host.Outcome.next.inj (h.symm.trans same))

/-- The byte an instruction is fetched from is its opcode's. -/
theorem peek_pc_of_fetchInstr_ok {s : State} {i : Instr} (h : fetchInstr s = .ok i) :
    s.mem.peek s.pc = i.opcode.byte := by
  rcases fetchInstr_cases s with ⟨-, e⟩ | ⟨-, -, e⟩ | ⟨-, -, -, -, e⟩ | ⟨op, hs, -, e⟩ <;> rw [h] at e
  · cases e
  · cases e
  · cases e
  · cases e
    rw [opcode_instr]
    exact (selectOpcode_eq_some_iff _ _).mp hs

/-- A step that changes the flag is an HLT, and clears it. -/
theorem step_changes_running {s t : State} (h : step s = .next t) (changed : t.running ≠ s.running) :
    s.enabled = true ∧ s.mem.peek s.pc = 0x01 ∧ t.running = false := by
  obtain ⟨u, hu, how⟩ := step_next s
  cases hu.symm.trans h
  rcases how with ⟨-, rfl⟩ | ⟨-, f, rfl⟩ | ⟨he, i, hf, hx, -⟩
  · exact absurd rfl changed
  · exact absurd (takeFault_running s f) changed
  · have hr := running_of_exec hx
    by_cases hi : i = .hlt
    · subst hi
      exact ⟨he, peek_pc_of_fetchInstr_ok hf, hr⟩
    · exact absurd (hr.trans (if_neg hi)) changed

theorem enabled_of_not_running {s : State} (h : s.running = false) : s.enabled = false := by
  simp [State.enabled, h]

theorem status_of_no_fault {s : State} (h : s.fault = none) :
    s.status = if s.running then .running else .halted := by
  simp only [State.status, h]

/-- Settles O38: setting the flag is an update that neither the fetch nor an instruction sees, so that a step that
changes it has executed HLT. -/
theorem runningClearedOnlyByHlt : Obligations.RunningClearedOnlyByHlt := by
  unfold Obligations.RunningClearedOnlyByHlt
  refine ⟨resetWith_running, fun _ _ => step_changes_running, fun _ => enabled_of_not_running, fun s hf => ?_,
    fun s b => (unseen_withRunning b).fetchInstr_eq s, fun _ _ _ b => exec_withRunning b⟩
  rw [status_of_no_fault hf]
  cases s.running <;> decide

end Sys2Proof.Machine
end

section
/-! The register file (R22), and the values after reset (R37). -/

namespace Sys2Proof.Machine

theorem regGet_error {r : Byte} (h : 8 ≤ r.toNat) (s : State) : regGet s r = .error (.invalidRegister r) := by
  rw [regGet, regIndex_error h]; rfl

theorem regGet_ok {r : Byte} {i : Fin 8} (h : r.toNat = i.val) (s : State) : regGet s r = .ok (s.reg i) := by
  rw [regGet, regIndex_ok h]; rfl

theorem regSet_error {r : Byte} (h : 8 ≤ r.toNat) (s : State) (v : Int) :
    regSet s r v = .error (.invalidRegister r) := by
  rw [regSet, regIndex_error h]; rfl

theorem regSet_ok {r : Byte} {i : Fin 8} (h : r.toNat = i.val) (s : State) (v : Int) :
    regSet s r v = .ok (s.setReg i v) := by
  rw [regSet, regIndex_ok h]; rfl

/-- Settles O41: inside the range both are `reg` and `setReg` of the named register. -/
theorem registerFileGetSet : Obligations.RegisterFileGetSet := by
  unfold Obligations.RegisterFileGetSet
  intro s r v
  refine ⟨fun h => ⟨regGet_error h s, regSet_error h s v⟩, fun i h => ⟨regGet_ok h s, s.setReg i v, regSet_ok h s v, ?_,
    rfl, fun j hj => reg_setReg_ne s hj.symm v⟩⟩
  rw [regGet_ok h, reg_setReg_self]

/-- Settles O45: the empty memory reads 0 everywhere, and the register file is `resetWith_reg`. -/
theorem resetValues : Obligations.ResetValues := by
  unfold Obligations.ResetValues
  exact fun c => ⟨peek_nil, resetWith_reg c, resetWith_pc c, resetWith_running c, resetWith_fault c, resetWith_out c⟩

end Sys2Proof.Machine
end

section
/-! Memory reads (R41), and cells that hold 0 (spec/20_memory.md R56). -/

namespace Sys2Proof.Machine

/-- Settles O42: the two cases of `memRead`, the bound written as the spec writes it. -/
theorem memReadInBounds : Obligations.MemReadInBounds := by
  unfold Obligations.MemReadInBounds
  exact fun m a => ⟨fun low high => memRead_ok m ⟨low, by omega⟩, fun outside => memRead_error m (by omega)⟩

theorem step_of_zero_byte {s : State} (he : s.enabled = true) (hpc : s.pc < 256) (hz : s.mem.peek s.pc = 0) :
    step s = .next (s.latched .unrecognizedOpcode) := by
  have illegal : selectOpcode (s.mem.peek s.pc) = none := by rw [hz]; decide
  have kind : illegalKind (s.mem.peek s.pc) = .unrecognizedOpcode 0 := by rw [hz]; decide
  rw [step_of_fetch_error he (fetchInstr_illegal hpc illegal), kind, takeFault_eq_latched]
  rfl

/-- Zeros stored into the empty memory are unlisted cells, so it stays empty. -/
theorem store_nil_replicate_zero (n base : Nat) : Memory.store [] base (List.replicate n 0) = [] := by
  induction n generalizing base with
  | zero => rfl
  | succ n ih =>
    have unwritten : (if base < 256 then Memory.poke [] base 0 else []) = [] := ite_eq_right_iff.mpr fun _ => rfl
    rw [List.replicate_succ, Memory.store, unwritten, ih]

theorem launch_of_length_le (c : Config) {image : List Byte} (h : image.length ≤ 256) :
    launch c image = some ((State.resetWith c).setMem (Memory.store [] 0 image)) := if_pos h

/-- The launch of an all-zero image is the reset state itself. -/
theorem launch_replicate_zero (c : Config) {n : Nat} (h : n ≤ 256) :
    launch c (List.replicate n 0) = some (State.resetWith c) := by
  rw [launch_of_length_le c (by simpa using h), store_nil_replicate_zero]
  rfl

theorem resetWith_enabled (c : Config) : (State.resetWith c).enabled = true := rfl

/-- Settles O31: the decoder's verdict on 0 ends the cycle, and an all-zero image launches into the reset state, whose
every cell reads 0. -/
theorem zeroByteIsUnrecognized : Obligations.ZeroByteIsUnrecognized := by
  unfold Obligations.ZeroByteIsUnrecognized
  refine ⟨fun s he hpc hz => step_of_zero_byte he (by omega) hz, fun c n hn => ?_⟩
  have first : step (State.resetWith c) = .next ((State.resetWith c).latched .unrecognizedOpcode) :=
    step_of_zero_byte (resetWith_enabled c) (by simp) (peek_nil 0)
  exact ⟨State.resetWith c, launch_replicate_zero c hn, first, resetWith_pc c, resetWith_running c⟩

end Sys2Proof.Machine
end

section
/-! The nine rows of the opcode table (spec/30_encoding.md R64), decoded and re-encoded (R66, R72). -/

namespace Sys2Proof.Machine

@[simp] theorem identityField_byte (op : Opcode) : identityField op.byte = op.fields.2.2 :=
  congrArg (fun fields => fields.2.2) (fields_of_byte op)

@[simp] theorem decodeByte_byte (op : Opcode) :
    decodeByte op.byte = .ok { opcode := op, operandCount := op.operandCount, isAlu := op.fields.2.1 } :=
  decodeByte_of_select (selectOpcode_byte op)

/-- R72: the fields read from a row's byte, put back together, are that byte. -/
theorem reencode_of_decodeByte_byte (op : Opcode) :
    (decodeByte op.byte).map (fun d => reencode d.operandCount d.isAlu (identityField op.byte)) = .ok op.byte := by
  rw [decodeByte_byte, identityField_byte]
  rfl

/-- Settles O1: each literal is the byte of its row, so every clause is a fact about `Opcode.byte`. -/
theorem opcodeTableDecodes : Obligations.OpcodeTableDecodes := by
  unfold Obligations.OpcodeTableDecodes
  refine ⟨decodeByte_byte .hlt, decodeByte_byte .ldi, decodeByte_byte .prn, decodeByte_byte .push, decodeByte_byte .pop,
    decodeByte_byte .add, decodeByte_byte .sub, decodeByte_byte .mul, decodeByte_byte .div,
    identityField_byte .hlt, identityField_byte .sub, identityField_byte .ldi, identityField_byte .mul, fun b hb => ?_⟩
  have row : b ∈ [Opcode.hlt, .ldi, .prn, .push, .pop, .add, .sub, .mul, .div].map Opcode.byte := hb
  obtain ⟨op, -, rfl⟩ := List.mem_map.mp row
  exact reencode_of_decodeByte_byte op

end Sys2Proof.Machine
end

section
/-! HLT (spec/40_cycle_and_hlt.md R89): the instruction, and the cycle that fetches its byte. -/

namespace Sys2Proof.Machine

theorem exec_hlt (s : State) : exec .hlt s = .next { s with pc := s.pc + 1, running := false } := rfl

theorem fetchInstr_of_hlt_byte {s : State} (hpc : s.pc < 256) (hb : s.mem.peek s.pc = 0x01) :
    fetchInstr s = .ok .hlt := by
  have legal : selectOpcode (s.mem.peek s.pc) = some .hlt := by rw [hb]; decide
  exact fetchInstr_legal legal hpc

theorem step_of_hlt_byte {s : State} (he : s.enabled = true) (hpc : s.pc < 256) (hb : s.mem.peek s.pc = 0x01) :
    step s = .next { s with pc := s.pc + 1, running := false } :=
  (step_of_fetch_ok he (fetchInstr_of_hlt_byte hpc hb)).trans (exec_hlt s)

theorem enabled_after_hlt {s t : State} (h : exec .hlt s = .next t) : t.enabled = false :=
  enabled_of_not_running ((running_of_exec h).trans (if_pos rfl))

/-- Settles O14: HLT has no operand byte to fetch, so wherever its byte can be read the cycle is `exec .hlt`, which has
no error case. -/
theorem hltHalts : Obligations.HltHalts := by
  unfold Obligations.HltHalts
  exact fun s => ⟨by decide, exec_hlt s, fun _ => enabled_after_hlt,
    fun he hpc hb => step_of_hlt_byte he (by omega) hb, fetchInstr_above⟩

end Sys2Proof.Machine
end

section
/-! LDI and PRN (spec/41_ldi_prn.md R100 to R102). -/

namespace Sys2Proof.Machine

/-- Settles O15: the completed LDI of `execLdi_ok`, its updates written as fields. -/
theorem ldiLoadsImmediate : Obligations.LdiLoadsImmediate := by
  unfold Obligations.LdiLoadsImmediate
  exact fun _ v _ s h => execLdi_ok h v s

/-- Settles O16: the completed PRN of `execPrn_ok`, its updates written as fields. -/
theorem prnEmitsRegister : Obligations.PrnEmitsRegister := by
  unfold Obligations.PrnEmitsRegister
  exact fun _ _ s h => execPrn_ok h s

theorem repeatExec_succ {i : Instr} {s t : State} (h : exec i s = .next t) (n : Nat) :
    repeatExec i (n + 1) s = repeatExec i n t := by
  simp only [repeatExec, h]

/-- PRN leaves the register it prints as it is, so each of `n` PRNs prints the same value. -/
theorem repeatExec_prn {r : Byte} {i : Fin 8} (h : r.toNat = i.val) (n : Nat) (s : State) :
    repeatExec (.prn r) n s =
      .next { s with out := s.out ++ List.replicate n (s.reg i), pc := s.pc + 2 * n } := by
  induction n generalizing s with
  | zero => simp [repeatExec]
  | succ n ih =>
    have printed : s.out ++ [s.reg i] ++ List.replicate n (s.reg i) = s.out ++ List.replicate (n + 1) (s.reg i) := by
      rw [List.append_assoc, List.singleton_append, List.replicate_succ]
    have advanced : s.pc + 2 + 2 * n = s.pc + 2 * (n + 1) := by omega
    rw [repeatExec_succ (prnEmitsRegister r i s h), ih, ← printed, ← advanced]
    rfl

/-- Settles O17: LDI sets the register, and `repeatExec_prn` is the induction over the number of PRNs. -/
theorem repeatedPrnPrintsLoadedValue : Obligations.RepeatedPrnPrintsLoadedValue := by
  unfold Obligations.RepeatedPrnPrintsLoadedValue
  intro r v i s n h
  have loaded : ((s.setReg i (zextW v)).advance .ldi).reg i = (v.toNat : Int) := reg_setReg_self s i (zextW v)
  refine ⟨_, execLdi_ok h v s, loaded, ?_⟩
  rw [repeatExec_prn h, loaded]
  rfl

end Sys2Proof.Machine
end

section
/-! The output stream (spec/10_state.md R33). -/

namespace Sys2Proof.Machine

/-! ## What appends to it -/

/-- The stream is left alone, or the instruction is a PRN and the value of the register it names is appended. -/
def AppendsOnlyIfPrn (i : Instr) (s t : State) : Prop :=
  t.out = s.out ∨ ∃ (r : Byte) (j : Fin 8), i = .prn r ∧ r.toNat = j.val ∧ t.out = s.out ++ [s.reg j]

theorem exec_appendsOnlyIfPrn (i : Instr) (s : State) : ∃ t, exec i s = .next t ∧ AppendsOnlyIfPrn i s t := by
  have alu : ∀ {op a b}, exec i s = aluExec op i.opcode a b s → ∃ t, exec i s = .next t ∧ AppendsOnlyIfPrn i s t := by
    intro op a b e
    rcases aluExec_cases op i.opcode a b s with ⟨_, _, _, -, -, -, h⟩ | ⟨_, _, -, -, -, -, h⟩ | ⟨-, h⟩ | ⟨-, -, h⟩
    all_goals exact ⟨_, e.trans h, .inl rfl⟩
  cases i with
  | hlt => exact ⟨_, rfl, .inl rfl⟩
  | ldi r v =>
    rcases names_register_or_above r with ⟨j, h⟩ | h
    · exact ⟨_, execLdi_ok h v s, .inl rfl⟩
    · exact ⟨_, execLdi_error h v s, .inl rfl⟩
  | prn r =>
    rcases names_register_or_above r with ⟨j, h⟩ | h
    · exact ⟨_, execPrn_ok h s, .inr ⟨r, j, rfl, h, rfl⟩⟩
    · exact ⟨_, execPrn_error h s, .inl rfl⟩
  | push r =>
    rcases names_register_or_above r with ⟨j, h⟩ | h
    · by_cases ha : 0 ≤ pushAddress s ∧ pushAddress s < 256
      · exact ⟨_, execPush_ok h ha, .inl rfl⟩
      · exact ⟨_, execPush_error_address h ha, .inl rfl⟩
    · exact ⟨_, execPush_error_index h s, .inl rfl⟩
  | pop r =>
    rcases names_register_or_above r with ⟨j, h⟩ | h
    · by_cases ha : 0 ≤ popAddress s ∧ popAddress s < 256
      · exact ⟨_, execPop_ok h ha, .inl rfl⟩
      · exact ⟨_, execPop_error_address h ha, .inl rfl⟩
    · exact ⟨_, execPop_error_index h s, .inl rfl⟩
  | add a b => exact alu (execAdd_eq a b s)
  | sub a b => exact alu (execSub_eq a b s)
  | mul a b => exact alu (execMul_eq a b s)
  | div a b => exact alu (execDiv_eq a b s)

/-- The operands of a fetched instruction are the bytes that follow its opcode byte. -/
theorem instr_of_fetchInstr_ok {s : State} {i : Instr} (h : fetchInstr s = .ok i) :
    i = i.opcode.instr (s.mem.peek (s.pc + 1)) (s.mem.peek (s.pc + 2)) := by
  rcases fetchInstr_cases s with ⟨-, e⟩ | ⟨-, -, e⟩ | ⟨-, -, -, -, e⟩ | ⟨op, -, -, e⟩ <;> rw [h] at e
  · cases e
  · cases e
  · cases e
  · cases e
    rw [opcode_instr]

/-- A step leaves the stream alone, or it is the cycle of a PRN. -/
theorem step_out {s t : State} (h : step s = .next t) :
    t.out = s.out ∨ (s.enabled = true ∧ s.mem.peek s.pc = 0x47 ∧
      ∃ i : Fin 8, (s.mem.peek (s.pc + 1)).toNat = i.val ∧ t.out = s.out ++ [s.reg i]) := by
  obtain ⟨u, hu, how⟩ := step_next s
  cases hu.symm.trans h
  rcases how with ⟨-, rfl⟩ | ⟨-, f, rfl⟩ | ⟨he, i, hf, hx, -⟩
  · exact .inl rfl
  · exact .inl (takeFault_out s f)
  · obtain ⟨v, hv, out⟩ := exec_appendsOnlyIfPrn i s
    cases hv.symm.trans hx
    refine out.imp_right fun ⟨r, j, prn, named, appended⟩ => ?_
    subst prn
    have operand : r = s.mem.peek (s.pc + 1) := Instr.prn.inj (instr_of_fetchInstr_ok hf)
    exact ⟨he, peek_pc_of_fetchInstr_ok hf, j, operand ▸ named, appended⟩

/-! ## Nothing reads it -/

/-- The state with `earlier` in the stream before what it holds. -/
def State.withEarlierOut (earlier : List Int) (s : State) : State := { s with out := earlier ++ s.out }

/-- PRN appends behind `earlier`, and no other operation touches the stream. -/
theorem unseen_withEarlierOut (earlier : List Int) : Unseen (State.withEarlierOut earlier) where
  mem _ := rfl
  pc _ := rfl
  reg _ _ := rfl
  wrap _ _ := rfl
  setReg _ _ _ := rfl
  setMem _ _ := rfl
  advance _ _ := rfl
  emit s v := congrArg (fun out => { s with out := out }) (List.append_assoc earlier s.out [v])
  takeFault _ _ := rfl

theorem exec_withEarlierOut {i : Instr} {s t : State} (earlier : List Int) (h : exec i s = .next t) :
    exec i (s.withEarlierOut earlier) = .next (t.withEarlierOut earlier) := by
  by_cases hi : i = .hlt
  · subst hi
    cases h
    rfl
  · rw [(unseen_withEarlierOut earlier).exec_eq hi, h, mapNext_next]

theorem enabled_ignores_out (s : State) (o : List Int) : State.enabled { s with out := o } = s.enabled := rfl

theorem fetchInstr_ignores_out (s : State) (o : List Int) : fetchInstr { s with out := o } = fetchInstr s := rfl

/-- Settles O39: PRN's is the one meaning that appends, and putting earlier output before the stream is an update that
no instruction sees. -/
theorem outputAppendedOnlyByPrn : Obligations.OutputAppendedOnlyByPrn := by
  unfold Obligations.OutputAppendedOnlyByPrn
  exact ⟨resetWith_out, fun _ _ => step_out, fun s o => ⟨enabled_ignores_out s o, fetchInstr_ignores_out s o⟩,
    fun _ _ _ earlier => exec_withEarlierOut earlier⟩

end Sys2Proof.Machine
end

section
/-! Illegal opcode bytes: what the decoder raises on them, and that nothing else raises it (spec/60_exceptions.md R143,
R145). -/

namespace Sys2Proof

/-- The decoder raises exactly the kind of a byte that selects no opcode. -/
theorem decodeByte_eq_error_iff (b : Byte) (why : Illegal) :
    decodeByte b = .error why ↔ selectOpcode b = none ∧ why = illegalKind b := by
  cases h : selectOpcode b with
  | none => simp [decodeByte_of_none h, eq_comm]
  | some op => simp [decodeByte_of_select h]

theorem illegalKind_of_bit5_set {b : Byte} (h : b.getLsbD 5 = true) : illegalKind b = .unsupportedOperation b :=
  if_pos h

theorem illegalKind_of_bit5_clear {b : Byte} (h : b.getLsbD 5 = false) : illegalKind b = .unrecognizedOpcode b :=
  if_neg (Bool.eq_false_iff.mp h)

theorem illegalKind_eq_unsupportedOperation_iff (b c : Byte) :
    .unsupportedOperation c = illegalKind b ↔ c = b ∧ b.getLsbD 5 = true := by
  cases h : b.getLsbD 5 with
  | true => simp [illegalKind_of_bit5_set h]
  | false => simp [illegalKind_of_bit5_clear h]

theorem illegalKind_eq_unrecognizedOpcode_iff (b c : Byte) :
    .unrecognizedOpcode c = illegalKind b ↔ c = b ∧ b.getLsbD 5 = false := by
  cases h : b.getLsbD 5 with
  | true => simp [illegalKind_of_bit5_set h]
  | false => simp [illegalKind_of_bit5_clear h]

/-- Among the bytes with bit 5 set, the four ALU bytes alone select an opcode. -/
theorem selectOpcode_eq_none_iff_of_bit5_set {b : Byte} :
    b.getLsbD 5 = true → (selectOpcode b = none ↔ b ∉ ([0xA0, 0xA1, 0xA2, 0xA3] : List Byte)) := by
  revert b; decide

/-- Among the bytes with bit 5 clear, the five other bytes of the table alone select an opcode. -/
theorem selectOpcode_eq_none_iff_of_bit5_clear {b : Byte} :
    b.getLsbD 5 = false → (selectOpcode b = none ↔ b ∉ ([0x01, 0x82, 0x47, 0x45, 0x46] : List Byte)) := by
  revert b; decide

theorem decodeByte_eq_unsupportedOperation_iff (b c : Byte) :
    decodeByte b = .error (.unsupportedOperation c) ↔
      c = b ∧ b.getLsbD 5 = true ∧ b ∉ ([0xA0, 0xA1, 0xA2, 0xA3] : List Byte) := by
  rw [decodeByte_eq_error_iff, illegalKind_eq_unsupportedOperation_iff, and_comm, and_assoc]
  exact and_congr_right fun _ => and_congr_right selectOpcode_eq_none_iff_of_bit5_set

theorem decodeByte_eq_unrecognizedOpcode_iff (b c : Byte) :
    decodeByte b = .error (.unrecognizedOpcode c) ↔
      c = b ∧ b.getLsbD 5 = false ∧ b ∉ ([0x01, 0x82, 0x47, 0x45, 0x46] : List Byte) := by
  rw [decodeByte_eq_error_iff, illegalKind_eq_unrecognizedOpcode_iff, and_comm, and_assoc]
  exact and_congr_right fun _ => and_congr_right selectOpcode_eq_none_iff_of_bit5_clear

/-- A count over the numbers below `m + n` is taken in two parts, so that each is small enough to evaluate. -/
theorem countP_range_add (p : Nat → Bool) (m n : Nat) :
    (List.range (m + n)).countP p = (List.range m).countP p + (List.range n).countP (fun k => p (m + k)) := by
  rw [List.range_add, List.countP_append, List.countP_map]
  rfl

namespace Machine

/-- A cycle whose opcode byte the decoder refuses ends in the fatal error of the verdict (R67, R83). -/
theorem step_of_decodeByte_error {s : State} {why : Illegal} (he : s.enabled = true) (hpc : s.pc < 256)
    (refused : decodeByte (s.mem.peek s.pc) = .error why) : step s = .next (s.takeFault (illegalFault why)) := by
  obtain ⟨illegal, rfl⟩ := (decodeByte_eq_error_iff _ _).mp refused
  exact step_of_fetch_error he (fetchInstr_illegal hpc illegal)

/-- An error of execution is neither of the decoder's two. -/
theorem Fault.ofExecution.kind_ne_illegal {f : Fault} (h : f.ofExecution) :
    f.kind ≠ .unsupportedOperation ∧ f.kind ≠ .unrecognizedOpcode := by
  rcases h with h | h | h <;> rw [h] <;> decide

/-- An instruction executed with an empty latch leaves it empty or sets it to an error of execution. -/
theorem fault_of_exec {i : Instr} {s t : State} (empty : s.fault = none) (h : exec i s = .next t) :
    t.fault = none ∨ ∃ f : Fault, f.ofExecution ∧ t.fault = some f.kind := by
  obtain ⟨u, hu, how⟩ := exec_next i s
  cases hu.symm.trans h
  rcases how with ⟨f, hf, rfl⟩ | done
  · exact .inr ⟨f, hf, rfl⟩
  · exact .inl (done.fault.trans empty)

theorem exec_raises_no_illegal {i : Instr} {s t : State} (empty : s.fault = none) (h : exec i s = .next t) :
    t.fault ≠ some .unsupportedOperation ∧ t.fault ≠ some .unrecognizedOpcode := by
  rcases fault_of_exec empty h with still | ⟨f, hf, set⟩
  · simp [still]
  · simpa [set] using hf.kind_ne_illegal

/-- Settles O2: the decoder refuses by `selectOpcode` and names the refusal by bit 5; the fetch takes its verdict over,
and the errors of execution are other kinds. -/
theorem illegalByteKinds : Obligations.IllegalByteKinds := by
  unfold Obligations.IllegalByteKinds
  refine ⟨decodeByte_eq_unsupportedOperation_iff, decodeByte_eq_unrecognizedOpcode_iff, by decide,
    (countP_range_add _ 128 128).trans (by decide), (countP_range_add _ 128 128).trans (by decide),
    fun s he hpc c => ⟨fun refused => ?_, fun refused => ?_⟩, fun _ _ _ => exec_raises_no_illegal⟩
  · exact ⟨_, step_of_decodeByte_error he (by omega) refused, rfl⟩
  · exact ⟨_, step_of_decodeByte_error he (by omega) refused, rfl⟩

end Machine
end Sys2Proof
end

section
/-! Decode and encode agree (spec/30_encoding.md R62, R71). -/

namespace Sys2Proof

/-- Only operand bytes that the format has are looked at, so bytes that follow them make no difference. -/
theorem opcode_instr_operands_append (i : Instr) (rest : List Byte) :
    i.opcode.instr ((i.operands ++ rest).getD 0 0) ((i.operands ++ rest).getD 1 0) = i := by
  cases i <;> rfl

theorem decode_encode_append (i : Instr) (rest : List Byte) : decode (encode i ++ rest) = .ok (i, rest) := by
  have whole : ¬ (i.operands ++ rest).length < i.opcode.operandCount := by simp
  have left : (i.operands ++ rest).drop i.opcode.operandCount = rest := List.drop_left' (operands_length i)
  rw [encode, List.cons_append, decode_cons_of_select (selectOpcode_byte _), if_neg whole,
    opcode_instr_operands_append, left]

/-- The operand bytes the decoder looks at are the front of the sequence it leaves the rest of. -/
theorem take_getD_pair {n : Nat} {bytes : List Byte} (two : n ≤ 2) (h : n ≤ bytes.length) :
    [bytes.getD 0 0, bytes.getD 1 0].take n = bytes.take n := by
  match n, bytes, two, h with
  | 0, _, _, _ => rfl
  | 1, _ :: _, _, _ => rfl
  | 2, _ :: _ :: _, _, _ => rfl

theorem eq_encode_append_of_decode {bytes : List Byte} {i : Instr} {rest : List Byte}
    (h : decode bytes = .ok (i, rest)) : bytes = encode i ++ rest := by
  cases bytes with
  | nil => cases h
  | cons b tail =>
    cases hs : selectOpcode b with
    | none =>
      rw [decode_cons_of_none hs] at h
      cases h
    | some op =>
      rw [decode_cons_of_select hs] at h
      split at h
      · cases h
      · cases h
        rw [encode, opcode_instr, ← (selectOpcode_eq_some_iff b op).mp hs, instr_operands,
          take_getD_pair (operandCount_le op) (by omega), List.cons_append, List.take_append_drop]

/-- Settles O3: forwards the bytes are the opcode's byte, the operand bytes taken and the rest dropped; backwards the
operand bytes are the ones the format asks for. -/
theorem decodeEncodeAgree : Obligations.DecodeEncodeAgree := by
  unfold Obligations.DecodeEncodeAgree
  exact fun _ i rest => ⟨eq_encode_append_of_decode, fun h => h ▸ decode_encode_append i rest⟩

end Sys2Proof
end

section
/-! What an instruction can do, said once: the state it completes in, or the error it raises (spec/60_exceptions.md
R149). Everything later that holds of every instruction goes through `exec_eq_next_iff`. -/

namespace Sys2Proof

/-! ## Register operands -/

/-- The operand bytes that name registers, in the order they are checked (R121, R142). -/
def Instr.registerOperands : Instr → List Byte
  | .hlt => []
  | .ldi r _ => [r]
  | .prn r => [r]
  | .push r => [r]
  | .pop r => [r]
  | .add a b => [a, b]
  | .sub a b => [a, b]
  | .mul a b => [a, b]
  | .div a b => [a, b]

/-- The operand byte that the register check reports: of several above 7 the first. -/
def Instr.firstInvalid (i : Instr) : Option Byte := i.registerOperands.find? fun r => !validReg r

theorem validReg_eq_false_iff (r : Byte) : validReg r = false ↔ 8 ≤ r.toNat := by
  simp [validReg]

theorem names_of_validReg {r : Byte} (h : validReg r = true) : ∃ i : Fin 8, r.toNat = i.val :=
  ⟨⟨r.toNat, of_decide_eq_true h⟩, rfl⟩

theorem wellFormed_eq_all (i : Instr) : i.wellFormed = i.registerOperands.all validReg := by
  cases i <;> simp [Instr.wellFormed, Instr.registerOperands]

theorem firstInvalid_eq_none_iff (i : Instr) : i.firstInvalid = none ↔ i.wellFormed = true := by
  simp [Instr.firstInvalid, wellFormed_eq_all]

theorem find_invalid_singleton {r x : Byte} (h : [r].find? (fun r => !validReg r) = some x) : x = r ∧ 8 ≤ r.toNat := by
  cases hr : validReg r with
  | true => simp [hr] at h
  | false => simp_all [validReg_eq_false_iff]

theorem find_invalid_pair {a b x : Byte} (h : [a, b].find? (fun r => !validReg r) = some x) :
    x = a ∧ 8 ≤ a.toNat ∨ x = b ∧ 8 ≤ b.toNat ∧ ∃ i : Fin 8, a.toNat = i.val := by
  cases ha : validReg a with
  | false => exact .inl (by simp_all [validReg_eq_false_iff])
  | true =>
    rw [List.find?_cons_of_neg (by simp [ha])] at h
    obtain ⟨hx, hb⟩ := find_invalid_singleton h
    exact .inr ⟨hx, hb, names_of_validReg ha⟩

namespace Machine

/-! ## The four ALU instructions as one -/

/-- The opcode that invokes an operation of the ALU (R129). -/
def AluOp.opcode : AluOp → Opcode
  | .add => .add
  | .sub => .sub
  | .mul => .mul
  | .div => .div

/-- The instruction that invokes an operation of the ALU. -/
abbrev AluOp.instr (op : AluOp) (a b : Byte) : Instr := op.opcode.instr a b

theorem exec_aluInstr (op : AluOp) (a b : Byte) (s : State) : exec (op.instr a b) s = aluExec op op.opcode a b s := by
  cases op with
  | add => exact execAdd_eq a b s
  | sub => exact execSub_eq a b s
  | mul => exact execMul_eq a b s
  | div => exact execDiv_eq a b s

@[simp] theorem registerOperands_aluInstr (op : AluOp) (a b : Byte) : (op.instr a b).registerOperands = [a, b] := by
  cases op <;> rfl

@[simp] theorem readsReg_aluInstr (op : AluOp) (a b : Byte) (j : Fin 8) :
    readsReg (op.instr a b) j = (names a j || names b j) := by
  cases op <;> rfl

@[simp] theorem writesReg_aluInstr (op : AluOp) (a b : Byte) (j : Fin 8) : writesReg (op.instr a b) j = names a j := by
  cases op <;> rfl

/-! ## The two ends of an instruction -/

/-- The state PUSH leaves when it completes: register 7 is decremented, then the low byte of the operand register is
stored. -/
def pushed (s : State) (i : Fin 8) : State :=
  let s₁ := s.setReg 7 (pushAddress s)
  (s₁.setMem (s.mem.poke (pushAddress s).toNat (low8 (s₁.reg i)))).advance .push

/-- The instruction completes from `s` in `t`. -/
inductive Completes : Instr → State → State → Prop where
  | hlt (s : State) : Completes .hlt s (s.advance .hlt).halt
  | ldi {r : Byte} {i : Fin 8} (named : r.toNat = i.val) (v : Byte) (s : State) :
    Completes (.ldi r v) s ((s.setReg i (zextW v)).advance .ldi)
  | prn {r : Byte} {i : Fin 8} (named : r.toNat = i.val) (s : State) :
    Completes (.prn r) s ((s.emit (s.reg i)).advance .prn)
  | push {r : Byte} {i : Fin 8} (named : r.toNat = i.val) {s : State}
    (address : 0 ≤ pushAddress s ∧ pushAddress s < 256) : Completes (.push r) s (pushed s i)
  | pop {r : Byte} {i : Fin 8} (named : r.toNat = i.val) {s : State}
    (address : 0 ≤ popAddress s ∧ popAddress s < 256) : Completes (.pop r) s (popped s i)
  | alu {op : AluOp} {a b : Byte} {i j : Fin 8} (first : a.toNat = i.val) (second : b.toNat = j.val) {s : State}
    {v : Int} (result : aluResult op (s.reg i) (s.reg j) = .ok v) :
    Completes (op.instr a b) s ((s.setReg i (s.wrap v)).advance op.opcode)

/-- The instruction raises `f` in `s`: the register check comes first, so the other three name registers. -/
inductive Raises : Instr → State → Fault → Prop where
  | index {i : Instr} {r : Byte} (bad : i.firstInvalid = some r) (s : State) : Raises i s (.invalidRegister r)
  | push {r : Byte} {i : Fin 8} (named : r.toNat = i.val) {s : State}
    (address : ¬ (0 ≤ pushAddress s ∧ pushAddress s < 256)) : Raises (.push r) s (.outOfBounds (pushAddress s))
  | pop {r : Byte} {i : Fin 8} (named : r.toNat = i.val) {s : State}
    (address : ¬ (0 ≤ popAddress s ∧ popAddress s < 256)) : Raises (.pop r) s (.outOfBounds (popAddress s))
  | div {a b : Byte} {i j : Fin 8} (first : a.toNat = i.val) (second : b.toNat = j.val) {s : State}
    (zero : s.reg j = 0) : Raises (.div a b) s .divideByZero

/-- What `exec` answers when the instruction completes. -/
theorem Completes.exec_eq {i : Instr} {s t : State} (h : Completes i s t) : exec i s = .next t := by
  cases h with
  | hlt => rfl
  | ldi named v => exact execLdi_ok named v s
  | prn named => exact execPrn_ok named s
  | push named address => exact execPush_ok named address
  | pop named address => exact execPop_ok named address
  | alu first second result => exact (exec_aluInstr _ _ _ s).trans (aluExec_ok _ first second result)

theorem exec_of_firstInvalid {i : Instr} {r : Byte} (bad : i.firstInvalid = some r) (s : State) :
    exec i s = .next (s.takeFault (.invalidRegister r)) := by
  have alu : ∀ (op : AluOp) (a b : Byte), (op.instr a b).firstInvalid = some r →
      exec (op.instr a b) s = .next (s.takeFault (.invalidRegister r)) := by
    intro op a b bad
    rw [Instr.firstInvalid, registerOperands_aluInstr] at bad
    rw [exec_aluInstr]
    rcases find_invalid_pair bad with ⟨rfl, ha⟩ | ⟨rfl, hb, i, ha⟩
    · exact aluExec_error_left op _ b ha s
    · exact aluExec_error_right op _ ha hb s
  cases i with
  | hlt => cases bad
  | ldi r' v => obtain ⟨rfl, h⟩ := find_invalid_singleton bad; exact execLdi_error h v s
  | prn r' => obtain ⟨rfl, h⟩ := find_invalid_singleton bad; exact execPrn_error h s
  | push r' => obtain ⟨rfl, h⟩ := find_invalid_singleton bad; exact execPush_error_index h s
  | pop r' => obtain ⟨rfl, h⟩ := find_invalid_singleton bad; exact execPop_error_index h s
  | add a b => exact alu .add a b bad
  | sub a b => exact alu .sub a b bad
  | mul a b => exact alu .mul a b bad
  | div a b => exact alu .div a b bad

/-- What `exec` answers when the instruction raises. -/
theorem Raises.exec_eq {i : Instr} {s : State} {f : Fault} (h : Raises i s f) : exec i s = .next (s.takeFault f) := by
  cases h with
  | index bad => exact exec_of_firstInvalid bad s
  | push named address => exact execPush_error_address named address
  | pop named address => exact execPop_error_address named address
  | div first second zero =>
    exact (exec_aluInstr .div _ _ s).trans (aluExec_error_result _ first second (by simp [aluResult, zero]))

/-- With its register operands accepted, an ALU instruction completes unless it divides by zero. -/
theorem aluInstr_completes_or_raises {op : AluOp} {a b : Byte} {i j : Fin 8} (first : a.toNat = i.val)
    (second : b.toNat = j.val) (s : State) :
    (∃ t, Completes (op.instr a b) s t) ∨ ∃ f, Raises (op.instr a b) s f := by
  cases hv : aluResult op (s.reg i) (s.reg j) with
  | ok v => exact .inl ⟨_, .alu first second hv⟩
  | error f =>
    cases op with
    | add => cases hv
    | sub => cases hv
    | mul => cases hv
    | div =>
      by_cases zero : s.reg j = 0
      · exact .inr ⟨_, .div first second zero⟩
      · simp [aluResult, zero] at hv

/-- Every instruction completes or raises. -/
theorem completes_or_raises (i : Instr) (s : State) : (∃ t, Completes i s t) ∨ ∃ f, Raises i s f := by
  cases bad : i.firstInvalid with
  | some r => exact .inr ⟨_, .index bad s⟩
  | none =>
    have valid : ∀ r ∈ i.registerOperands, ∃ j : Fin 8, r.toNat = j.val := by
      rw [firstInvalid_eq_none_iff, wellFormed_eq_all, List.all_eq_true] at bad
      exact fun r hr => names_of_validReg (bad r hr)
    have alu : ∀ {op : AluOp} {a b : Byte}, i = op.instr a b →
        (∃ t, Completes (op.instr a b) s t) ∨ ∃ f, Raises (op.instr a b) s f := by
      rintro op a b rfl
      obtain ⟨i, first⟩ := valid a (by simp)
      obtain ⟨j, second⟩ := valid b (by simp)
      exact aluInstr_completes_or_raises first second s
    cases i with
    | hlt => exact .inl ⟨_, .hlt s⟩
    | ldi r v =>
      obtain ⟨j, named⟩ := valid r (List.mem_singleton_self r)
      exact .inl ⟨_, .ldi named v s⟩
    | prn r =>
      obtain ⟨j, named⟩ := valid r (List.mem_singleton_self r)
      exact .inl ⟨_, .prn named s⟩
    | push r =>
      obtain ⟨j, named⟩ := valid r (List.mem_singleton_self r)
      by_cases address : 0 ≤ pushAddress s ∧ pushAddress s < 256
      · exact .inl ⟨_, .push named address⟩
      · exact .inr ⟨_, .push named address⟩
    | pop r =>
      obtain ⟨j, named⟩ := valid r (List.mem_singleton_self r)
      by_cases address : 0 ≤ popAddress s ∧ popAddress s < 256
      · exact .inl ⟨_, .pop named address⟩
      · exact .inr ⟨_, .pop named address⟩
    | add a b => exact alu (op := .add) rfl
    | sub a b => exact alu (op := .sub) rfl
    | mul a b => exact alu (op := .mul) rfl
    | div a b => exact alu (op := .div) rfl

/-- The inversion of `exec`: what it answers is what the instruction completes in, or the error it raises taken. -/
theorem exec_eq_next_iff {i : Instr} {s t : State} :
    exec i s = .next t ↔ Completes i s t ∨ ∃ f, Raises i s f ∧ t = s.takeFault f := by
  constructor
  · intro h
    rcases completes_or_raises i s with ⟨u, hu⟩ | ⟨f, hf⟩
    · cases hu.exec_eq.symm.trans h
      exact .inl hu
    · cases hf.exec_eq.symm.trans h
      exact .inr ⟨f, hf, rfl⟩
  · rintro (h | ⟨f, h, rfl⟩)
    · exact h.exec_eq
    · exact h.exec_eq

/-! ## What every completed instruction leaves alike -/

theorem Completes.fault_eq {i : Instr} {s t : State} (h : Completes i s t) : t.fault = s.fault := by
  cases h <;> rfl

theorem Completes.config_eq {i : Instr} {s t : State} (h : Completes i s t) : t.config = s.config := by
  cases h <;> rfl

theorem Completes.pc_eq {i : Instr} {s t : State} (h : Completes i s t) : t.pc = s.pc + i.length := by
  cases h with
  | alu => simp [Instr.length, Nat.add_assoc]
  | _ => rfl

/-- Executed with an empty latch, an instruction that leaves a kind in it has raised an error of that kind. -/
theorem exec_fault_iff {i : Instr} {s : State} (empty : s.fault = none) (k : FaultKind) :
    (∃ t, exec i s = .next t ∧ t.fault = some k) ↔ ∃ f, Raises i s f ∧ f.kind = k := by
  constructor
  · rintro ⟨t, h, hk⟩
    rcases exec_eq_next_iff.mp h with done | ⟨f, raised, rfl⟩
    · rw [done.fault_eq, empty] at hk
      cases hk
    · exact ⟨f, raised, Option.some.inj hk⟩
  · rintro ⟨f, raised, rfl⟩
    exact ⟨_, raised.exec_eq, rfl⟩

end Machine
end Sys2Proof
end

section
/-! The invariant of the machine (spec/10_state.md R26, R27, R32; spec/20_memory.md R40): each update of the state keeps
it, so every step does, and reset and launch begin in it. -/

namespace Sys2Proof.Machine

/-! ## The updates -/

namespace State.Inv

variable {s : State} (inv : s.Inv)
include inv

theorem setReg (i : Fin 8) {v : Int} (hv : inRange s.config.width v = true) : (s.setReg i v).Inv where
  mem_wf := inv.mem_wf
  regs_in_range j := by
    rw [setReg_config, reg_setReg]
    split
    · exact hv
    · exact inv.regs_in_range j
  out_in_range := inv.out_in_range
  pc_le := inv.pc_le
  fault_running := inv.fault_running

theorem setMem {m : Memory} (hm : m.wf = true) : (s.setMem m).Inv := { inv with mem_wf := hm }

theorem emit {v : Int} (hv : inRange s.config.width v = true) : (s.emit v).Inv where
  mem_wf := inv.mem_wf
  regs_in_range := inv.regs_in_range
  out_in_range u hu := by
    rcases List.mem_append.mp hu with old | new
    · exact inv.out_in_range u old
    · rw [List.mem_singleton.mp new]
      exact hv
  pc_le := inv.pc_le
  fault_running := inv.fault_running

theorem advance {op : Opcode} (hpc : s.pc + 1 + op.operandCount ≤ 256) : (s.advance op).Inv := { inv with pc_le := hpc }

theorem halt (empty : s.fault = none) : s.halt.Inv := { inv with fault_running := fun full => absurd empty full }

theorem takeFault (running : s.running = true) (f : Fault) : (s.takeFault f).Inv :=
  { inv with fault_running := fun _ => running }

end State.Inv

theorem wrap_inRange (s : State) (v : Int) : inRange s.config.width (s.wrap v) = true := wrapW_inRange _ v

/-! ## The instructions and the step -/

/-- A completed instruction that lies within memory keeps the invariant. -/
theorem Completes.keeps_inv {i : Instr} {s t : State} (done : Completes i s t) (inv : s.Inv) (empty : s.fault = none)
    (within : s.pc + i.length ≤ 256) : t.Inv := by
  have fits : s.pc + 1 + i.opcode.operandCount ≤ 256 := by rwa [Nat.add_assoc]
  cases done with
  | hlt => exact (inv.advance fits).halt empty
  | ldi _ v => exact (inv.setReg _ (inRange_zextW _ v)).advance fits
  | prn => exact (inv.emit (inv.regs_in_range _)).advance fits
  | push _ address =>
    exact ((inv.setReg 7 (wrap_inRange s _)).setMem (poke_wf inv.mem_wf (by omega) _)).advance fits
  | pop => exact ((inv.setReg _ (inRange_zextW _ _)).setReg 7 (wrap_inRange s _)).advance fits
  | alu =>
    rw [opcode_instr] at fits
    exact (inv.setReg _ (wrap_inRange s _)).advance fits

/-- Settles O11: a stopped machine stands still, taking an error happens with the running flag true, and a completed
instruction is a sequence of updates that keep the invariant, its bytes all fetched from memory. -/
theorem stepKeepsInvariant : Obligations.StepKeepsInvariant := by
  unfold Obligations.StepKeepsInvariant
  intro s t inv h
  obtain ⟨u, hu, how⟩ := step_next s
  cases hu.symm.trans h
  rcases how with ⟨-, rfl⟩ | ⟨he, f, rfl⟩ | ⟨he, i, hf, hx, -⟩
  · exact inv
  · exact inv.takeFault ((enabled_iff s).mp he).1 f
  · have running := ((enabled_iff s).mp he).1
    have empty := ((enabled_iff s).mp he).2
    have within := pc_of_fetchInstr_ok hf
    rcases exec_eq_next_iff.mp hx with done | ⟨f, -, rfl⟩
    · exact done.keeps_inv inv empty (by rw [Instr.length]; omega)
    · exact inv.takeFault running f

/-! ## Reset and launch -/

/-- Settles O12: memory is empty, and the registers hold 0 and the byte `SP_INIT`. -/
theorem resetMeetsInvariant : Obligations.ResetMeetsInvariant := by
  unfold Obligations.ResetMeetsInvariant
  exact fun c =>
    { mem_wf := rfl
      regs_in_range := fun i => by
        rw [resetWith_reg]
        split
        · exact inRange_zextW _ c.spInit
        · exact inRange_of_small _ (by decide) (by decide)
      out_in_range := nofun
      pc_le := Nat.zero_le _
      fault_running := fun _ => rfl }

theorem launch_of_length_gt (c : Config) {image : List Byte} (h : 256 < image.length) : launch c image = none :=
  if_neg (by omega)

/-- Settles O13: storing the image into the empty memory of the reset state keeps the canonical form. -/
theorem launchMeetsInvariant : Obligations.LaunchMeetsInvariant := by
  unfold Obligations.LaunchMeetsInvariant
  intro c image
  refine ⟨fun fits => ⟨_, launch_of_length_le c fits, ?_⟩, launch_of_length_gt c⟩
  exact (resetMeetsInvariant c).setMem (store_wf rfl 0 image)

theorem peek_store_nil (image : List Byte) (x : Nat) :
    (Memory.store [] 0 image).peek x = if x < image.length ∧ x < 256 then image.getD x 0 else 0 := by
  rw [peek_store (m := []) rfl, peek_nil, Nat.zero_add, Nat.sub_zero]
  simp only [Nat.zero_le, true_and]
  rfl

/-- Settles O46: what `peek_store` says of the empty memory. -/
theorem launchState : Obligations.LaunchState := by
  unfold Obligations.LaunchState
  intro c image fits
  refine ⟨_, launch_of_length_le c fits, fun n h => ?_, fun n h => ?_⟩
  · rw [peek_store_nil, if_pos ⟨h, by omega⟩, List.getD_eq_getElem image 0 h]
  · rw [peek_store_nil, if_neg (by omega)]

end Sys2Proof.Machine
end

section
/-! Cycles: what the fetch decides, and that a cycle is all or nothing (spec/40_cycle_and_hlt.md R80, R87;
spec/60_exceptions.md R149, R150). -/

namespace Sys2Proof.Machine

theorem fetchInstr_of_decode {s : State} {i : Instr} {rest : List Byte} (h : decode s.bytesAtPc = .ok (i, rest)) :
    fetchInstr s = .ok i := by
  rcases fetch_agrees_with_decode s with ⟨-, d, -⟩ | ⟨-, -, d, -⟩ | ⟨_, _, -, -, d, -⟩ | ⟨_, _, -, d, hf⟩ <;>
    cases d.symm.trans h
  exact hf

/-- Settles O4: where the decoder of the byte sequence answers an instruction, the fetch answers the same. -/
theorem stepRunsDecodedInstruction : Obligations.StepRunsDecodedInstruction := by
  unfold Obligations.StepRunsDecodedInstruction
  exact fun _ _ _ he h => step_of_fetch_ok he (fetchInstr_of_decode h)

/-- The kind of the error a decoder's verdict becomes in the fetch. -/
def DecodeError.faultKind : DecodeError → FaultKind
  | .illegal (.unsupportedOperation _) => .unsupportedOperation
  | .illegal (.unrecognizedOpcode _) => .unrecognizedOpcode
  | .missingByte _ => .outOfBounds

theorem faultKind_illegal (why : Illegal) : DecodeError.faultKind (.illegal why) = (illegalFault why).kind := by
  cases why <;> rfl

/-- Where the decoder of the byte sequence answers an error, the step latches its kind. -/
theorem step_of_decode_error {s : State} {e : DecodeError} (he : s.enabled = true)
    (h : decode s.bytesAtPc = .error e) : step s = .next (s.latched (DecodeError.faultKind e)) := by
  rcases fetch_agrees_with_decode s with ⟨-, d, hf⟩ | ⟨-, -, d, hf⟩ | ⟨_, _, -, -, d, hf⟩ | ⟨_, _, -, d, -⟩ <;>
    cases d.symm.trans h
  · exact step_of_fetch_error he hf
  · rw [faultKind_illegal]
    exact step_of_fetch_error he hf
  · exact step_of_fetch_error he hf

/-- Settles O5: the three kinds are `step_of_decode_error` at the three verdicts. -/
theorem stepTakesErrorOfFetch : Obligations.StepTakesErrorOfFetch := by
  unfold Obligations.StepTakesErrorOfFetch
  exact fun s he => ⟨fun _ h => step_of_decode_error he h, fun _ h => step_of_decode_error he h,
    fun _ h => step_of_decode_error he h⟩

/-- Settles O7: the two ends of `exec_eq_next_iff`. -/
theorem execAllOrNothing : Obligations.ExecAllOrNothing := by
  unfold Obligations.ExecAllOrNothing
  intro i s
  rcases completes_or_raises i s with ⟨t, done⟩ | ⟨f, raised⟩
  · exact ⟨t, done.exec_eq, .inr ⟨done.fault_eq, done.pc_eq⟩⟩
  · exact ⟨_, raised.exec_eq, .inl ⟨f.kind, rfl⟩⟩

/-- Settles O6: an error of the decoder is latched; a decoded instruction is executed, and its length is one plus the
operand count field of the byte it was selected by. -/
theorem cycleAllOrNothing : Obligations.CycleAllOrNothing := by
  unfold Obligations.CycleAllOrNothing
  intro s he
  cases d : decode s.bytesAtPc with
  | error e => exact ⟨_, step_of_decode_error he d, .inl ⟨_, rfl⟩⟩
  | ok decoded =>
    obtain ⟨i, rest⟩ := decoded
    have runs := stepRunsDecodedInstruction s i rest he d
    rcases completes_or_raises i s with ⟨t, done⟩ | ⟨f, raised⟩
    · have empty := done.fault_eq.trans ((enabled_iff s).mp he).2
      have length : i.length = 1 + operandCountField (s.mem.peek s.pc) := by
        rw [peek_pc_of_fetchInstr_ok (fetchInstr_of_decode d), operandCountField_byte, Instr.length]
      have advanced := done.pc_eq
      rw [length, ← Nat.add_assoc] at advanced
      exact ⟨t, runs.trans done.exec_eq, .inr ⟨empty, advanced, i, rest, rfl, done.exec_eq⟩⟩
    · exact ⟨_, runs.trans raised.exec_eq, .inl ⟨f.kind, rfl⟩⟩

end Sys2Proof.Machine
end

section
/-! Runs: how they end, and what no run changes (spec/00_scope.md R9; spec/40_cycle_and_hlt.md R81, R90). -/

namespace Sys2Proof.Machine

/-! ## Stopped machines -/

theorem run_of_not_enabled {s : State} (h : s.enabled = false) (n : Nat) : Sys2Proof.core.run n s = .next s := by
  induction n with
  | zero => exact run_zero s
  | succ n ih => rw [run_succ (step_of_not_enabled h), ih]

/-- Settles O8: a step of a stopped machine is no change, and a reset is `State.resetWith`. -/
theorem stoppedStaysStopped : Obligations.StoppedStaysStopped := by
  unfold Obligations.StoppedStaysStopped
  exact fun s n h => ⟨run_of_not_enabled h n, rfl, resetWith_enabled s.config⟩

/-- A machine whose full latch leaves the running flag true has stopped in one of the two ways of R9. -/
theorem enabled_eq_false_iff {s : State} (latch : s.fault ≠ none → s.running = true) :
    s.enabled = false ↔ s.Halted ∨ s.Faulted := by
  cases hf : s.fault with
  | none => simp [State.enabled, State.Halted, State.Faulted, hf]
  | some k => simp [State.enabled, State.Halted, State.Faulted, hf, latch (by simp [hf])]

/-! ## The program counter along a run -/

/-- A machine that is enabled after a step was enabled before it, and its program counter has risen. -/
theorem pc_lt_of_step {s t : State} (h : step s = .next t) (he : t.enabled = true) :
    s.enabled = true ∧ s.pc < t.pc := by
  obtain ⟨u, hu, how⟩ := step_next s
  cases hu.symm.trans h
  rcases how with ⟨stopped, rfl⟩ | ⟨-, f, rfl⟩ | ⟨before, _, -, -, done⟩
  · rw [stopped] at he
    cases he
  · simp [enabled_iff] at he
  · exact ⟨before, by have := done.pc; omega⟩

/-- In `n` cycles the program counter rises by at least `n`. -/
theorem pc_add_le_of_run {n : Nat} {s t : State} (h : Sys2Proof.core.run n s = .next t) (he : t.enabled = true) :
    s.enabled = true ∧ s.pc + n ≤ t.pc := by
  induction n generalizing s with
  | zero => cases h; exact ⟨he, le_rfl⟩
  | succ n ih =>
    obtain ⟨u, hu, -⟩ := step_next s
    rw [run_succ hu] at h
    obtain ⟨enabled, rises⟩ := ih h
    obtain ⟨before, first⟩ := pc_lt_of_step hu enabled
    exact ⟨before, by omega⟩

/-- Settles O10: the later state is reached from the earlier one in `n - m` cycles. -/
theorem noAddressExecutedTwice : Obligations.NoAddressExecutedTwice := by
  unfold Obligations.NoAddressExecutedTwice
  intro s t u m n lt hm hn _ he
  have later : Sys2Proof.core.run (n - m) t = .next u := by
    rw [← run_add m (n - m) hm, Nat.add_sub_of_le lt.le, hn]
  have rises := (pc_add_le_of_run later he).2
  omega

/-- Settles O9: a machine still enabled after 256 cycles has its program counter above memory, where the fetch fails. -/
theorem everyRunEnds : Obligations.EveryRunEnds := by
  unfold Obligations.EveryRunEnds
  intro s inv
  refine ⟨enabled_eq_false_iff inv.fault_running, 256, le_rfl, ?_⟩
  obtain ⟨t, ht⟩ := run_next 256 s
  have inv' : t.Inv := run_keeps stepKeepsInvariant 256 inv ht
  refine ⟨t, ht, ?_⟩
  cases he : t.enabled with
  | false => exact ((enabled_eq_false_iff inv'.fault_running).mp he).imp_right .inl
  | true =>
    have above : 256 ≤ t.pc := by have := (pc_add_le_of_run ht he).2; omega
    have running := ((enabled_iff t).mp he).1
    exact .inr (.inr ⟨_, step_of_fetch_error he (fetchInstr_above above), ⟨running, nofun⟩, _, rfl⟩)

/-! ## The parameters and the status -/

theorem step_config {s t : State} (h : step s = .next t) : t.config = s.config := by
  obtain ⟨u, hu, how⟩ := step_next s
  cases hu.symm.trans h
  rcases how with ⟨-, rfl⟩ | ⟨-, f, rfl⟩ | ⟨-, _, -, -, done⟩
  · rfl
  · exact takeFault_config s f
  · exact done.config

/-- Settles O40: no step writes the field. -/
theorem parametersNeverChange : Obligations.ParametersNeverChange := by
  unfold Obligations.ParametersNeverChange
  intro s _ n h
  exact run_keeps (P := fun t => t.config = s.config) (fun _ _ same hu => (step_config hu).trans same) n rfl h

/-- The content of the latch that a code stands for (R147). -/
def latchOfCode : Nat → Option FaultKind
  | 1 => some .outOfBounds
  | 2 => some .invalidRegister
  | 3 => some .unsupportedOperation
  | 4 => some .divideByZero
  | 5 => some .unrecognizedOpcode
  | _ => none

theorem latchOfCode_faultCode (f : Option FaultKind) : latchOfCode (faultCode f) = f := by
  rcases f with _ | k
  · rfl
  · cases k <;> rfl

/-- Settles O47: the status looks at the latch first, then at the running flag; and the code can be read back. -/
theorem statusShowsHowRunEnded : Obligations.StatusShowsHowRunEnded := by
  unfold Obligations.StatusShowsHowRunEnded
  refine ⟨fun s => ?_, fun _ _ same => Function.LeftInverse.injective latchOfCode_faultCode same⟩
  cases hf : s.fault with
  | some k => simp [State.status, State.Halted, State.enabled, hf]
  | none => cases hr : s.running <;> simp [State.status, State.Halted, State.enabled, hf, hr]

end Sys2Proof.Machine
end

section
/-! Memory writes (spec/20_memory.md R42), and that the canonical form is one (log 6). -/

namespace Sys2Proof.Machine

theorem memRead_poke {m : Memory} (h : m.wf = true) {a : Int} (ha : 0 ≤ a ∧ a < 256) (b : Byte) (x : Int) :
    memRead (m.poke a.toNat b) x = if x = a then .ok b else memRead m x := by
  by_cases hx : 0 ≤ x ∧ x < 256
  · have same : x.toNat = a.toNat ↔ x = a := by omega
    simp only [memRead_ok _ hx, peek_poke h, same]
    split <;> rfl
  · rw [memRead_error _ hx, memRead_error _ hx, if_neg (by omega)]

/-- Settles O43: the written memory is `poke`, whose reads are `peek_poke`. -/
theorem memReadAfterWrite : Obligations.MemReadAfterWrite := by
  unfold Obligations.MemReadAfterWrite
  intro m a b h
  refine ⟨fun low high => ?_, fun outside => memWrite_error m (by omega) b⟩
  have ha : 0 ≤ a ∧ a < 256 := ⟨low, by omega⟩
  exact ⟨_, memWrite_ok m ha b, poke_wf h (by omega) b, memRead_poke h ha b⟩

@[simp] theorem peek_cons_self (a : Nat) (b : Byte) (m : Memory) : Memory.peek ((a, b) :: m) a = b := if_pos rfl

/-- The first entry of a canonical memory names the lowest cell that is not as after reset. -/
theorem first_le_of_peek_ne {a x : Nat} {b : Byte} {m : Memory} (h : Memory.wf ((a, b) :: m) = true)
    (hx : Memory.peek ((a, b) :: m) x ≠ Memory.unlisted) : a ≤ x := by
  obtain ⟨-, -, above, -⟩ := (wf_cons_iff a b m).mp h
  by_contra below
  refine hx (peek_of_lt fun d hd => ?_)
  rcases List.mem_cons.mp hd with rfl | hd
  · exact not_le.mp below
  · exact (not_le.mp below).trans (above d hd)

/-- Two canonical memories that begin with the same entry and read alike have tails that read alike. -/
theorem peek_tail_eq {a : Nat} {b : Byte} {m m' : Memory} (above : ∀ d ∈ m, a < d.1) (above' : ∀ d ∈ m', a < d.1)
    (same : ∀ x, Memory.peek ((a, b) :: m) x = Memory.peek ((a, b) :: m') x) (x : Nat) : m.peek x = m'.peek x := by
  by_cases hx : a = x
  · subst hx
    rw [peek_of_lt above, peek_of_lt above']
  · simpa [peek_cons, hx] using same x

theorem eq_of_peek_eq {m m' : Memory} (h : m.wf = true) (h' : m'.wf = true) (same : ∀ x, m.peek x = m'.peek x) :
    m = m' := by
  induction m generalizing m' with
  | nil =>
    cases m' with
    | nil => rfl
    | cons c' m' =>
      obtain ⟨-, listed, -, -⟩ := (wf_cons_iff c'.1 c'.2 m').mp h'
      exact absurd ((peek_cons_self c'.1 c'.2 m').symm.trans (same c'.1).symm) listed
  | cons c m ih =>
    obtain ⟨a, b⟩ := c
    obtain ⟨-, listed, above, hm⟩ := (wf_cons_iff a b m).mp h
    cases m' with
    | nil => exact absurd ((peek_cons_self a b m).symm.trans (same a)) listed
    | cons c' m' =>
      obtain ⟨a', b'⟩ := c'
      obtain ⟨-, listed', above', hm'⟩ := (wf_cons_iff a' b' m').mp h'
      have le : a ≤ a' := first_le_of_peek_ne h (by rwa [same, peek_cons_self])
      have ge : a' ≤ a := first_le_of_peek_ne h' (by rwa [← same, peek_cons_self])
      obtain rfl := le_antisymm le ge
      obtain rfl : b = b' := by simpa using same a
      rw [ih hm hm' (peek_tail_eq above above' same)]

/-- Settles O44: `eq_of_peek_eq`, by induction on the entries: the lowest cell that is not 0 is the first entry of
both. -/
theorem canonicalMemoryUnique : Obligations.CanonicalMemoryUnique := by
  unfold Obligations.CanonicalMemoryUnique
  exact fun _ _ => eq_of_peek_eq

end Sys2Proof.Machine
end

section
/-! Wrapping (spec/00_scope.md R16; spec/43_alu.md R126) and the quotient (R127). -/

namespace Sys2Proof.Machine

/-! ## The one representative -/

/-- Values congruent modulo `2 ^ W` wrap alike. -/
theorem wrapW_eq_of_dvd_sub {k : Nat} {u v : Int} (h : (2 : Int) ^ (10 + k) ∣ v - u) :
    wrapW (.tenPlus k) v = wrapW (.tenPlus k) u := by
  rw [wrapW, wrapW, Int.bmod_eq_bmod_iff_bmod_sub_eq_zero, ← Int.dvd_iff_bmod_eq_zero]
  exact_mod_cast h

theorem dvd_sub_wrapW (k : Nat) (v : Int) : (2 : Int) ^ (10 + k) ∣ v - wrapW (.tenPlus k) v := by
  have : ((2 ^ (10 + k) : Nat) : Int) ∣ v - v.bmod (2 ^ (10 + k)) := Int.dvd_self_sub_bmod
  exact_mod_cast this

/-- A value of the register range is what every value congruent to it wraps to. -/
theorem eq_wrapW_of_dvd_sub {k : Nat} {u v : Int} (hu : inRange (.tenPlus k) u = true)
    (congruent : (2 : Int) ^ (10 + k) ∣ v - u) : u = wrapW (.tenPlus k) v := by
  rw [wrapW_eq_of_dvd_sub congruent, wrapW_of_inRange hu]

/-- Settles O27: the range and the congruence are those of the balanced remainder; a congruent value of the range wraps
to the same and to itself. -/
theorem wrapIsUniqueRepresentative : Obligations.WrapIsUniqueRepresentative := by
  unfold Obligations.WrapIsUniqueRepresentative
  intro v
  refine ⟨rfl, fun k => ⟨?_, fun u lo hi congruent => ?_⟩⟩
  · obtain ⟨lo, hi⟩ := (inRange_tenPlus_iff k _).mp (wrapW_inRange (.tenPlus k) v)
    exact ⟨lo, hi, dvd_sub_wrapW k v⟩
  · exact eq_wrapW_of_dvd_sub ((inRange_tenPlus_iff k u).mpr ⟨lo, hi⟩) congruent

/-- Settles O28: the balanced remainder is taken once or at each step, as the library says of each operation. -/
theorem wrapOnceOrAtEachStep : Obligations.WrapOnceOrAtEachStep := by
  unfold Obligations.WrapOnceOrAtEachStep
  intro w x y
  cases w with
  | unbounded => exact ⟨rfl, rfl, rfl⟩
  | tenPlus k => simp [wrapW]

/-! ## The quotient -/

theorem aluResult_div (x : Int) {y : Int} (h : y ≠ 0) : aluResult .div x y = .ok (x.tdiv y) := by
  rw [aluResult, if_neg h, tdiv_eq]

/-- The least value of a finite register divided by -1 is one above the greatest, and wraps to the least. -/
theorem wrapW_neg_least (k : Nat) : wrapW (.tenPlus k) (2 ^ (9 + k)) = -2 ^ (9 + k) := by
  have pos : (0 : Int) < 2 ^ (9 + k) := by positivity
  have least : inRange (.tenPlus k) (-2 ^ (9 + k)) = true := (inRange_tenPlus_iff k _).mpr ⟨le_rfl, by omega⟩
  have apart : (2 : Int) ^ (9 + k) - -2 ^ (9 + k) = 2 ^ (10 + k) := by
    rw [show 10 + k = (9 + k) + 1 by omega, pow_succ]
    ring
  exact (eq_wrapW_of_dvd_sub least (Dvd.intro _ (by rw [apart, mul_one]))).symm

/-- Settles O26: the remainder of the truncating quotient is `tmod`, smaller than the divisor and of the dividend's
sign. -/
theorem quotientHasRemainderOfDividendSign : Obligations.QuotientHasRemainderOfDividendSign := by
  unfold Obligations.QuotientHasRemainderOfDividendSign
  refine ⟨fun x y hy => ⟨x.tdiv y, x.tmod y, aluResult_div x hy, ?_, ?_, ?_⟩, fun k => ?_⟩
  · rw [Int.mul_comm, Int.mul_tdiv_add_tmod]
  · rw [Int.natAbs_tmod]
    exact Nat.mod_lt _ (Int.natAbs_pos.mpr hy)
  · by_cases divides : y ∣ x
    · exact .inl (Int.tmod_eq_zero_of_dvd divides)
    · exact .inr (by rw [Int.sign_tmod, if_neg divides])
  · rw [aluResult_div _ (by decide), Int.tdiv_neg, Int.tdiv_one, neg_neg, Except.map, wrapW_neg_least]

end Sys2Proof.Machine
end

section
/-! Two writes of registers, one after the other. -/

namespace Sys2Proof.Machine

variable (s : State)

/-- A later write of the same register overwrites the earlier one. -/
@[simp] theorem setReg_setReg_self (i : Fin 8) (v w : Int) : (s.setReg i v).setReg i w = s.setReg i w := by
  simp only [State.setReg, Vector.set_set]

theorem setReg_comm {i j : Fin 8} (h : i ≠ j) (v w : Int) :
    (s.setReg i v).setReg j w = (s.setReg j w).setReg i v := by
  simp only [State.setReg, Vector.set_comm _ _ (Fin.val_ne_of_ne h)]

end Sys2Proof.Machine
end

section
/-! The ALU instructions on operands that name registers (spec/43_alu.md R122 to R125). -/

namespace Sys2Proof.Machine

theorem exec_alu {op : AluOp} {a b : Byte} {i j : Fin 8} (first : a.toNat = i.val) (second : b.toNat = j.val)
    {s : State} {v : Int} (result : aluResult op (s.reg i) (s.reg j) = .ok v) :
    exec (op.instr a b) s = .next { s with regs := s.regs.set i (wrapW s.config.width v), pc := s.pc + 3 } := by
  have three : op.opcode.operandCount = 2 := by cases op <;> rfl
  rw [(Completes.alu first second result).exec_eq, State.advance, three]
  rfl

/-- Settles O24: `exec_alu` at the three operations that cannot fail. -/
theorem addSubMulWrapExactResult : Obligations.AddSubMulWrapExactResult := by
  unfold Obligations.AddSubMulWrapExactResult
  exact fun _ _ _ _ _ first second => ⟨exec_alu (op := .add) first second rfl, exec_alu (op := .sub) first second rfl,
    exec_alu (op := .mul) first second rfl⟩

/-- Settles O25: `exec_alu` at the quotient, which is Lean's own. -/
theorem divTruncates : Obligations.DivTruncates := by
  unfold Obligations.DivTruncates
  exact fun _ _ _ _ _ first second nonzero => exec_alu (op := .div) first second (aluResult_div _ nonzero)

end Sys2Proof.Machine
end

section
/-! PUSH and POP (spec/42_stack.md R110 to R116). -/

namespace Sys2Proof.Machine

theorem low8_eq_ofInt (v : Int) : low8 v = BitVec.ofInt 8 v := by
  apply BitVec.eq_of_toNat_eq
  simp [low8]
  omega

/-! ## PUSH -/

theorem pushed_reg_seven (s : State) (i : Fin 8) : (pushed s i).reg 7 = pushAddress s := reg_setReg_self s 7 _

/-- What PUSH reads from its operand register: the decrement comes first, so PUSH R7 reads the decremented pointer. -/
theorem reg_decremented (s : State) (i : Fin 8) :
    (s.setReg 7 (pushAddress s)).reg i = if i = 7 then pushAddress s else s.reg i := by
  simp only [reg_setReg, eq_comm]

theorem peek_pushed {s : State} (h : s.mem.wf = true) (address : 0 ≤ pushAddress s ∧ pushAddress s < 256) (i : Fin 8)
    (c : Nat) : (pushed s i).mem.peek c =
      if (c : Int) = pushAddress s then BitVec.ofInt 8 (if i = 7 then pushAddress s else s.reg i)
      else s.mem.peek c := by
  have same : c = (pushAddress s).toNat ↔ (c : Int) = pushAddress s := by omega
  rw [← reg_decremented, ← low8_eq_ofInt]
  simp only [pushed, advance_mem, setMem_mem, peek_poke h, same]

/-- Settles O18: `pushed`, with its updates written as fields. -/
theorem pushStores : Obligations.PushStores := by
  unfold Obligations.PushStores
  rintro r i s a named h rfl low high
  have address : 0 ≤ pushAddress s ∧ pushAddress s < 256 := ⟨low, Int.lt_add_one_of_le high⟩
  exact ⟨_, (Completes.push named address).exec_eq, peek_pushed h address i⟩

/-- A stack pointer in [1, 256] is decremented without wrapping. -/
theorem pushAddress_of_small {s : State} (low : 1 ≤ s.reg 7) (high : s.reg 7 ≤ 256) : pushAddress s = s.reg 7 - 1 :=
  wrapW_of_small _ (by omega) (by omega)

/-- The decrement of a register value stays in the range or wraps from the least value to the greatest. -/
theorem wrapW_pred_cases {w : RegWidth} {v : Int} (hv : inRange w v = true) :
    wrapW w (v - 1) = v - 1 ∨ v ≤ 0 ∧ 256 ≤ wrapW w (v - 1) := by
  cases w with
  | unbounded => exact .inl rfl
  | tenPlus k =>
    obtain ⟨lo, hi⟩ := (inRange_tenPlus_iff k v).mp hv
    by_cases least : v = -2 ^ (9 + k)
    · have large := ((inRange_tenPlus_iff k 511).mp (inRange_of_small _ (by decide) le_rfl)).2
      have greatest : inRange (.tenPlus k) (2 ^ (9 + k) - 1) = true := (inRange_tenPlus_iff k _).mpr (by omega)
      have apart : v - 1 - (2 ^ (9 + k) - 1) = 2 ^ (10 + k) * (-1) := by
        rw [least, show 10 + k = (9 + k) + 1 by omega, pow_succ]
        ring
      have wraps := eq_wrapW_of_dvd_sub greatest (Dvd.intro _ apart.symm)
      exact .inr (by omega)
    · exact .inl (wrapW_of_inRange ((inRange_tenPlus_iff k _).mpr (by omega)))

/-- Settles O19: the two errors in the order they are checked; a decrement that wraps ends far above memory. -/
theorem pushTraps : Obligations.PushTraps := by
  unfold Obligations.PushTraps
  intro r s
  refine ⟨(execPush_error_index · s), fun below outside => ?_, fun hv => ?_⟩
  · have named : r.toNat = (⟨r.toNat, by omega⟩ : Fin 8).val := rfl
    exact execPush_error_address named (by omega)
  · have := wrapW_pred_cases hv
    simp only [pushAddress, State.wrap]
    omega

/-! ## POP -/

theorem wrap_zextW_succ (s : State) (b : Byte) : s.wrap (zextW b + 1) = zextW b + 1 := by
  have low := zextW_nonneg b
  have high := zextW_le b
  exact wrapW_of_small _ (by omega) (by omega)

/-- POP R7 overwrites the byte it has loaded by that byte plus one. -/
theorem popped_seven (s : State) :
    popped s 7 = (s.setReg 7 (zextW (s.mem.peek (popAddress s).toNat) + 1)).advance .pop := by
  simp only [popped, reg_setReg_self, setReg_setReg_self, wrap_zextW_succ]

theorem popped_of_ne {i : Fin 8} (h : i ≠ 7) (s : State) : popped s i =
    ((s.setReg i (zextW (s.mem.peek (popAddress s).toNat))).setReg 7 (s.wrap (s.reg 7 + 1))).advance .pop := by
  simp only [popped, reg_setReg_ne s h]

theorem popped_reg_seven_of_ne {i : Fin 8} (h : i ≠ 7) (s : State) : (popped s i).reg 7 = s.wrap (s.reg 7 + 1) := by
  rw [popped_of_ne h, advance_reg, reg_setReg_self]

theorem popped_reg_of_ne {i : Fin 8} (h : i ≠ 7) (s : State) :
    (popped s i).reg i = zextW (s.mem.peek (popAddress s).toNat) := by
  rw [popped_of_ne h, advance_reg, reg_setReg_ne _ h.symm, reg_setReg_self]

theorem popped_seven_reg_seven (s : State) :
    (popped s 7).reg 7 = zextW (s.mem.peek (popAddress s).toNat) + 1 := by
  rw [popped_seven, advance_reg, reg_setReg_self]

/-- Settles O20: the two forms of `popped`, with their updates written as fields. -/
theorem popLoads : Obligations.PopLoads := by
  unfold Obligations.PopLoads
  intro r i s a named pointer high
  have address : 0 ≤ popAddress s ∧ popAddress s < 256 := by rw [popAddress]; omega
  have cell : (popAddress s).toNat = a := by rw [popAddress, pointer]; rfl
  rw [(Completes.pop named address).exec_eq]
  by_cases hi : i = 7
  · rw [if_pos hi, hi, popped_seven, cell]
    rfl
  · have incremented : s.wrap (s.reg 7 + 1) = a + 1 := by
      rw [pointer]
      exact wrapW_of_small _ (by omega) (by omega)
    rw [if_neg hi, popped_of_ne hi, cell, incremented]
    rfl

/-- Settles O21: the two errors in the order they are checked. -/
theorem popTraps : Obligations.PopTraps := by
  unfold Obligations.PopTraps
  intro r s
  refine ⟨(execPop_error_index · s), fun below outside => ?_⟩
  have named : r.toNat = (⟨r.toNat, by omega⟩ : Fin 8).val := rfl
  exact execPop_error_address named (by rw [popAddress]; omega)

/-! ## PUSH, then POP or the next fetch -/

/-- The byte PUSH has stored, as POP reads it. -/
theorem zextW_peek_pushed {s : State} (h : s.mem.wf = true) (low : 1 ≤ s.reg 7) (high : s.reg 7 ≤ 256) (i : Fin 8) :
    zextW ((pushed s i).mem.peek (s.reg 7 - 1).toNat) = if i = 7 then s.reg 7 - 1 else s.reg i % 256 := by
  have a := pushAddress_of_small low high
  rw [peek_pushed h (by omega), if_pos (by omega), ← low8_eq_ofInt, zextW_low8, a]
  split
  · exact Int.emod_eq_of_lt (by omega) (by omega)
  · rfl

/-- Settles O22: POP reads the cell that PUSH has stored to; the rows of the table are the cases of `popped`. -/
theorem pushPopRoundTrip : Obligations.PushPopRoundTrip := by
  unfold Obligations.PushPopRoundTrip
  intro r r' i i' s named named' h low high
  have a := pushAddress_of_small low high
  have stored := zextW_peek_pushed h low high i
  have pointer : popAddress (pushed s i) = s.reg 7 - 1 := (pushed_reg_seven s i).trans a
  have restored : (pushed s i).wrap ((pushed s i).reg 7 + 1) = s.reg 7 := by
    rw [pushed_reg_seven, a, sub_add_cancel]
    exact wrapW_of_small _ (by omega) (by omega)
  refine ⟨pushed s i, popped (pushed s i) i', (Completes.push named (by omega)).exec_eq,
    (Completes.pop named' (by omega)).exec_eq, stored, ?_⟩
  have read : zextW ((pushed s i).mem.peek (popAddress (pushed s i)).toNat) =
      if i = 7 then s.reg 7 - 1 else s.reg i % 256 := by
    rw [pointer, stored]
  refine ⟨fun hi hi' => ?_, fun hi hi' => ?_, fun hi hi' => ?_, fun hi hi' => ?_⟩
  · rw [popped_reg_seven_of_ne hi', popped_reg_of_ne hi', restored, read, if_neg hi]
    exact ⟨rfl, rfl, fun low' high' => Int.emod_eq_of_lt low' (by omega)⟩
  · rw [popped_reg_seven_of_ne hi', popped_reg_of_ne hi', restored, read, if_pos hi]
    exact ⟨rfl, rfl⟩
  · rw [hi', popped_seven_reg_seven, read, if_neg hi]
  · rw [hi', popped_seven_reg_seven, read, if_pos hi, sub_add_cancel]

theorem getElem?_bytesAtPc {s : State} {n : Nat} (h : s.pc + n < 256) :
    s.bytesAtPc[n]? = some (s.mem.peek (s.pc + n)) := by
  rw [State.bytesAtPc, List.getElem?_map, List.getElem?_range' (by omega)]
  simp

/-- Settles O23: the byte at the next program counter plus `n` is the one `peek_pushed` gives. -/
theorem storeSeenByNextFetch : Obligations.StoreSeenByNextFetch := by
  unfold Obligations.StoreSeenByNextFetch
  intro r i s t n named h _ hx empty ahead
  by_cases address : 0 ≤ pushAddress s ∧ pushAddress s < 256
  · cases (Completes.push named address).exec_eq.symm.trans hx
    rw [getElem?_bytesAtPc (by omega), peek_pushed h address, if_pos ahead.symm]
  · cases (Raises.push named address).exec_eq.symm.trans hx
    cases empty

end Sys2Proof.Machine
end

section
/-! The fatal errors: exactly when an instruction or a step raises each kind (spec/60_exceptions.md R141 to R145). -/

namespace Sys2Proof.Machine

/-! ## InvalidRegister -/

theorem aluApply_error_left (op : AluOp) {a : Byte} (b : Byte) (h : 8 ≤ a.toNat) (s : State) :
    aluApply op a b s = .error (.invalidRegister a) := by
  rw [aluApply, regPair_error_left b h]; rfl

theorem aluApply_error_right (op : AluOp) {a b : Byte} {i : Fin 8} (first : a.toNat = i.val) (h : 8 ≤ b.toNat)
    (s : State) : aluApply op a b s = .error (.invalidRegister b) := by
  rw [aluApply, regPair_error_right first h]; rfl

theorem raises_invalidRegister_iff (i : Instr) (s : State) :
    (∃ f, Raises i s f ∧ f.kind = .invalidRegister) ↔ i.wellFormed = false := by
  constructor
  · rintro ⟨f, raised, kind⟩
    cases raised with
    | index bad =>
      rw [← Bool.not_eq_true, ← firstInvalid_eq_none_iff, bad]
      exact nofun
    | _ => cases kind
  · intro bad
    rw [← Bool.not_eq_true, ← firstInvalid_eq_none_iff] at bad
    obtain ⟨r, hr⟩ := Option.ne_none_iff_exists'.mp bad
    exact ⟨_, .index hr s, rfl⟩

/-- Settles O32: of the errors an instruction raises the index check's alone has the kind, and it records the byte it
looks at. -/
theorem invalidRegisterExactly : Obligations.InvalidRegisterExactly := by
  unfold Obligations.InvalidRegisterExactly
  refine ⟨fun i s empty => (exec_fault_iff empty _).trans (raises_invalidRegister_iff i s), fun r h => regIndex_error h,
    fun s r v h => ⟨regGet_error h s, regSet_error h s v⟩, fun op a b s => ⟨fun h => ?_, fun below h => ?_⟩⟩
  · exact ⟨regPair_error_left b h, aluApply_error_left op b h s⟩
  · have first : a.toNat = (⟨a.toNat, by omega⟩ : Fin 8).val := rfl
    exact ⟨regPair_error_right first h, aluApply_error_right op first h s⟩

/-! ## DivideByZero -/

theorem raises_divideByZero_iff (n : Instr) (s : State) : (∃ f, Raises n s f ∧ f.kind = .divideByZero) ↔
    ∃ (a b : Byte) (i j : Fin 8), n = .div a b ∧ a.toNat = i.val ∧ b.toNat = j.val ∧ s.reg j = 0 := by
  constructor
  · rintro ⟨f, raised, kind⟩
    cases raised with
    | div first second zero => exact ⟨_, _, _, _, rfl, first, second, zero⟩
    | _ => cases kind
  · rintro ⟨a, b, i, j, rfl, first, second, zero⟩
    exact ⟨_, .div first second zero, rfl⟩

/-- An instruction that leaves a kind in the latch that was empty has changed nothing else. -/
theorem eq_latched_of_exec {i : Instr} {s t : State} {k : FaultKind} (empty : s.fault = none)
    (h : exec i s = .next t) (full : t.fault = some k) : t = s.latched k := by
  rcases exec_eq_next_iff.mp h with done | ⟨f, -, rfl⟩
  · rw [done.fault_eq, empty] at full
    cases full
  · cases full
    rfl

/-- Settles O33: of the errors an instruction raises DIV's alone has the kind; the index check comes before it. -/
theorem divideByZeroExactly : Obligations.DivideByZeroExactly := by
  unfold Obligations.DivideByZeroExactly
  intro n s empty
  refine ⟨(exec_fault_iff empty _).trans (raises_divideByZero_iff n s), fun t h full => ?_, ?_⟩
  · rw [eq_latched_of_exec empty h full]
    rfl
  · rintro a b j rfl above - -
    have bad : (Instr.div a b).firstInvalid = some a :=
      List.find?_cons_of_pos (by rw [(validReg_eq_false_iff a).mpr above]; rfl)
    exact ⟨_, exec_of_firstInvalid bad s, rfl⟩

/-! ## The errors of a step -/

theorem exec_eq_latched_iff {i : Instr} {s : State} (empty : s.fault = none) (k : FaultKind) :
    exec i s = .next (s.latched k) ↔ ∃ f, Raises i s f ∧ f.kind = k := by
  rw [← exec_fault_iff empty]
  constructor
  · exact fun h => ⟨_, h, rfl⟩
  · rintro ⟨t, h, full⟩
    rwa [← eq_latched_of_exec empty h full]

/-- The fetch of the next instruction raises an error of the kind. -/
def FetchRaises (s : State) (k : FaultKind) : Prop := ∃ f, fetchInstr s = .error f ∧ f.kind = k

/-- The next instruction is fetched, and raises an error of the kind. -/
def ExecutionRaises (s : State) (k : FaultKind) : Prop := ∃ i, fetchInstr s = .ok i ∧ ∃ f, Raises i s f ∧ f.kind = k

/-- A step latches a kind exactly when its fetch, or the instruction it has fetched, raises an error of that kind. -/
theorem step_eq_latched_iff {s : State} (he : s.enabled = true) (k : FaultKind) :
    step s = .next (s.latched k) ↔ FetchRaises s k ∨ ExecutionRaises s k := by
  cases hf : fetchInstr s with
  | error f => simp [FetchRaises, ExecutionRaises, step_of_fetch_error he hf, takeFault_eq_latched, State.latched, hf]
  | ok i =>
    rw [step_of_fetch_ok he hf, exec_eq_latched_iff ((enabled_iff s).mp he).2]
    simp [FetchRaises, ExecutionRaises, hf]

/-! ## The two errors of the decoder -/

theorem Raises.ofExecution {i : Instr} {s : State} {f : Fault} (h : Raises i s f) : f.ofExecution := by
  cases h with
  | index => exact .inr (.inl rfl)
  | push => exact .inl rfl
  | pop => exact .inl rfl
  | div => exact .inr (.inr rfl)

/-- An error of the fetch that is not OutOfBounds is the decoder's verdict on the opcode byte. -/
theorem fetchRaises_illegal_iff (s : State) (k : FaultKind) (hk : k ≠ .outOfBounds) : FetchRaises s k ↔
    s.pc ≤ 255 ∧ selectOpcode (s.mem.peek s.pc) = none ∧ (illegalFault (illegalKind (s.mem.peek s.pc))).kind = k := by
  constructor
  · rintro ⟨f, hf, kind⟩
    rcases fetchInstr_cases s with ⟨-, e⟩ | ⟨below, illegal, e⟩ | ⟨_, -, -, -, e⟩ | ⟨_, -, -, e⟩ <;>
      cases e.symm.trans hf
    · exact absurd kind.symm hk
    · exact ⟨by omega, illegal, kind⟩
    · exact absurd kind.symm hk
  · rintro ⟨below, illegal, kind⟩
    exact ⟨_, fetchInstr_illegal (by omega) illegal, kind⟩

theorem kind_unsupportedOperation_iff (b : Byte) :
    (illegalFault (illegalKind b)).kind = .unsupportedOperation ↔ b.getLsbD 5 = true := by
  cases h : b.getLsbD 5 with
  | true => simp [illegalKind_of_bit5_set h, illegalFault, Fault.kind]
  | false => simp [illegalKind_of_bit5_clear h, illegalFault, Fault.kind]

theorem kind_unrecognizedOpcode_iff (b : Byte) :
    (illegalFault (illegalKind b)).kind = .unrecognizedOpcode ↔ b.getLsbD 5 = false := by
  cases h : b.getLsbD 5 with
  | true => simp [illegalKind_of_bit5_set h, illegalFault, Fault.kind]
  | false => simp [illegalKind_of_bit5_clear h, illegalFault, Fault.kind]

theorem not_executionRaises_unsupportedOperation (s : State) : ¬ ExecutionRaises s .unsupportedOperation :=
  fun ⟨_, _, _, raised, kind⟩ => raised.ofExecution.kind_ne_illegal.1 kind

theorem not_executionRaises_unrecognizedOpcode (s : State) : ¬ ExecutionRaises s .unrecognizedOpcode :=
  fun ⟨_, _, _, raised, kind⟩ => raised.ofExecution.kind_ne_illegal.2 kind

/-- Settles O29: no instruction raises the kind, so it is the decoder's verdict on the opcode byte. -/
theorem unsupportedOperationExactly : Obligations.UnsupportedOperationExactly := by
  unfold Obligations.UnsupportedOperationExactly
  intro s he
  rw [step_eq_latched_iff he, or_iff_left (not_executionRaises_unsupportedOperation s),
    fetchRaises_illegal_iff s .unsupportedOperation nofun, kind_unsupportedOperation_iff, and_comm (b := _ = true)]
  exact and_congr_right fun _ => and_congr_right selectOpcode_eq_none_iff_of_bit5_set

/-- Settles O30: no instruction raises the kind, so it is the decoder's verdict on the opcode byte. -/
theorem unrecognizedOpcodeExactly : Obligations.UnrecognizedOpcodeExactly := by
  unfold Obligations.UnrecognizedOpcodeExactly
  intro s he
  rw [step_eq_latched_iff he, or_iff_left (not_executionRaises_unrecognizedOpcode s),
    fetchRaises_illegal_iff s .unrecognizedOpcode nofun, kind_unrecognizedOpcode_iff, and_comm (b := _ = false)]
  exact and_congr_right fun _ => and_congr_right selectOpcode_eq_none_iff_of_bit5_clear

/-! ## OutOfBounds -/

/-- The bytes of the instructions with at least one operand byte. -/
theorem selects_with_operand_iff (b : Byte) : (∃ op, selectOpcode b = some op ∧ 1 ≤ op.operandCount) ↔
    b ∈ ([0x82, 0x47, 0x45, 0x46, 0xA0, 0xA1, 0xA2, 0xA3] : List Byte) := by
  have rows : (selectOpcode b).any (fun op => decide (1 ≤ op.operandCount)) = true ↔
      b ∈ ([0x82, 0x47, 0x45, 0x46, 0xA0, 0xA1, 0xA2, 0xA3] : List Byte) := by revert b; decide
  simpa [Option.any_eq_true] using rows

/-- The bytes of the instructions with two operand bytes. -/
theorem selects_with_two_operands_iff (b : Byte) : (∃ op, selectOpcode b = some op ∧ 2 ≤ op.operandCount) ↔
    b ∈ ([0x82, 0xA0, 0xA1, 0xA2, 0xA3] : List Byte) := by
  have rows : (selectOpcode b).any (fun op => decide (2 ≤ op.operandCount)) = true ↔
      b ∈ ([0x82, 0xA0, 0xA1, 0xA2, 0xA3] : List Byte) := by revert b; decide
  simpa [Option.any_eq_true] using rows

theorem illegalFault_kind_ne_outOfBounds (why : Illegal) : (illegalFault why).kind ≠ .outOfBounds := by
  cases why <;> exact nofun

/-- The fetch leaves memory at the opcode byte, or behind a legal one with too many operand bytes for its place. -/
theorem fetchRaises_outOfBounds_iff (s : State) : FetchRaises s .outOfBounds ↔ 255 < s.pc ∨
    ∃ op, s.pc < 256 ∧ selectOpcode (s.mem.peek s.pc) = some op ∧ 256 ≤ s.pc + op.operandCount := by
  constructor
  · rintro ⟨f, hf, kind⟩
    rcases fetchInstr_cases s with ⟨above, e⟩ | ⟨-, -, e⟩ | ⟨op, below, legal, short, e⟩ | ⟨_, -, -, e⟩ <;>
      cases e.symm.trans hf
    · exact .inl above
    · exact absurd kind (illegalFault_kind_ne_outOfBounds _)
    · exact .inr ⟨op, below, legal, short⟩
  · rintro (above | ⟨op, below, legal, short⟩)
    · exact ⟨_, fetchInstr_above above, rfl⟩
    · exact ⟨_, fetchInstr_short below legal short, rfl⟩

/-- No instruction has more than two operand bytes, so only the last two addresses are too near the end. -/
theorem operands_beyond_memory_iff (s : State) :
    (∃ op, s.pc < 256 ∧ selectOpcode (s.mem.peek s.pc) = some op ∧ 256 ≤ s.pc + op.operandCount) ↔
      (s.pc = 255 ∧ s.mem.peek 255 ∈ ([0x82, 0x47, 0x45, 0x46, 0xA0, 0xA1, 0xA2, 0xA3] : List Byte)) ∨
      (s.pc = 254 ∧ s.mem.peek 254 ∈ ([0x82, 0xA0, 0xA1, 0xA2, 0xA3] : List Byte)) := by
  rw [← selects_with_operand_iff, ← selects_with_two_operands_iff]
  constructor
  · rintro ⟨op, below, legal, short⟩
    have two := operandCount_le op
    by_cases last : s.pc = 255
    · exact .inl ⟨last, op, last ▸ legal, by omega⟩
    · have last : s.pc = 254 := by omega
      exact .inr ⟨last, op, last ▸ legal, by omega⟩
  · rintro (⟨last, op, legal, one⟩ | ⟨last, op, legal, two⟩)
    · exact ⟨op, by omega, last ▸ legal, by omega⟩
    · exact ⟨op, by omega, last ▸ legal, by omega⟩

theorem fetchInstr_eq_ok_iff (s : State) (i : Instr) : fetchInstr s = .ok i ↔
    s.pc + i.opcode.operandCount < 256 ∧ s.mem.peek s.pc = i.opcode.byte ∧
      i = i.opcode.instr (s.mem.peek (s.pc + 1)) (s.mem.peek (s.pc + 2)) := by
  constructor
  · exact fun h => ⟨pc_of_fetchInstr_ok h, peek_pc_of_fetchInstr_ok h, instr_of_fetchInstr_ok h⟩
  · rintro ⟨within, byte, operands⟩
    rw [fetchInstr_legal ((selectOpcode_eq_some_iff _ _).mpr byte) within, ← operands]

theorem fetchInstr_eq_push_iff (s : State) (r : Byte) : fetchInstr s = .ok (.push r) ↔
    s.pc + 1 < 256 ∧ s.mem.peek s.pc = 0x45 ∧ r = s.mem.peek (s.pc + 1) :=
  (fetchInstr_eq_ok_iff s (.push r)).trans (and_congr_right' (and_congr_right' ⟨Instr.push.inj, congrArg Instr.push⟩))

theorem fetchInstr_eq_pop_iff (s : State) (r : Byte) : fetchInstr s = .ok (.pop r) ↔
    s.pc + 1 < 256 ∧ s.mem.peek s.pc = 0x46 ∧ r = s.mem.peek (s.pc + 1) :=
  (fetchInstr_eq_ok_iff s (.pop r)).trans (and_congr_right' (and_congr_right' ⟨Instr.pop.inj, congrArg Instr.pop⟩))

/-- Of the instructions, PUSH and POP raise OutOfBounds, when the register check accepts their operand. -/
theorem raises_outOfBounds_iff (i : Instr) (s : State) : (∃ f, Raises i s f ∧ f.kind = .outOfBounds) ↔
    (∃ r, i = .push r ∧ r.toNat ≤ 7 ∧ ¬ (0 ≤ pushAddress s ∧ pushAddress s ≤ 255)) ∨
      ∃ r, i = .pop r ∧ r.toNat ≤ 7 ∧ ¬ (0 ≤ popAddress s ∧ popAddress s ≤ 255) := by
  constructor
  · rintro ⟨f, raised, kind⟩
    cases raised with
    | push named address => exact .inl ⟨_, rfl, by omega, by omega⟩
    | pop named address => exact .inr ⟨_, rfl, by omega, by omega⟩
    | _ => cases kind
  · rintro (⟨r, rfl, below, address⟩ | ⟨r, rfl, below, address⟩)
    · exact ⟨_, .push (i := ⟨r.toNat, by omega⟩) rfl (by omega), rfl⟩
    · exact ⟨_, .pop (i := ⟨r.toNat, by omega⟩) rfl (by omega), rfl⟩

theorem executionRaises_outOfBounds_iff (s : State) : ExecutionRaises s .outOfBounds ↔
    (s.pc ≤ 254 ∧ s.mem.peek s.pc = 0x45 ∧ (s.mem.peek (s.pc + 1)).toNat ≤ 7 ∧
      ¬ (0 ≤ pushAddress s ∧ pushAddress s ≤ 255)) ∨
    (s.pc ≤ 254 ∧ s.mem.peek s.pc = 0x46 ∧ (s.mem.peek (s.pc + 1)).toNat ≤ 7 ∧
      ¬ (0 ≤ popAddress s ∧ popAddress s ≤ 255)) := by
  simp only [ExecutionRaises, raises_outOfBounds_iff]
  constructor
  · rintro ⟨i, hf, ⟨r, rfl, below, address⟩ | ⟨r, rfl, below, address⟩⟩
    · obtain ⟨within, byte, rfl⟩ := (fetchInstr_eq_push_iff s r).mp hf
      exact .inl ⟨by omega, byte, below, address⟩
    · obtain ⟨within, byte, rfl⟩ := (fetchInstr_eq_pop_iff s r).mp hf
      exact .inr ⟨by omega, byte, below, address⟩
  · rintro (⟨within, byte, below, address⟩ | ⟨within, byte, below, address⟩)
    · exact ⟨_, (fetchInstr_eq_push_iff s _).mpr ⟨by omega, byte, rfl⟩, .inl ⟨_, rfl, below, address⟩⟩
    · exact ⟨_, (fetchInstr_eq_pop_iff s _).mpr ⟨by omega, byte, rfl⟩, .inr ⟨_, rfl, below, address⟩⟩

/-- Settles O34: the first three cases are the fetch's, the last two the instructions'. -/
theorem outOfBoundsExactly : Obligations.OutOfBoundsExactly := by
  unfold Obligations.OutOfBoundsExactly
  intro s he
  rw [step_eq_latched_iff he, fetchRaises_outOfBounds_iff, operands_beyond_memory_iff, executionRaises_outOfBounds_iff,
    or_assoc, or_assoc]
  rfl

end Sys2Proof.Machine
end

section
/-! What an instruction leaves alone, and what it does not look at (spec/10_state.md R23; spec/20_memory.md R45). -/

namespace Sys2Proof.Machine

/-! ## The frame -/

theorem ne_of_not_names {r : Byte} {i j : Fin 8} (named : r.toNat = i.val) (h : names r j = false) : i ≠ j := by
  rintro rfl
  simp [names, named] at h

theorem Completes.reg_eq {i : Instr} {s t : State} (done : Completes i s t) {j : Fin 8}
    (unwritten : writesReg i j = false) :
    t.reg j = s.reg j := by
  cases done with
  | hlt => rfl
  | ldi named => exact reg_setReg_ne s (ne_of_not_names named unwritten) _
  | prn => rfl
  | push => exact reg_setReg_ne s (by rintro rfl; cases unwritten) _
  | pop named =>
    obtain ⟨other, seven⟩ := Bool.or_eq_false_iff.mp unwritten
    exact (reg_setReg_ne _ (by rintro rfl; cases seven) _).trans (reg_setReg_ne s (ne_of_not_names named other) _)
  | alu first =>
    rw [writesReg_aluInstr] at unwritten
    exact reg_setReg_ne s (ne_of_not_names first unwritten) _

theorem Completes.peek_eq {i : Instr} {s t : State} (done : Completes i s t) {c : Nat} (unstored : ¬ storesTo i s c) :
    t.mem.peek c = s.mem.peek c := by
  cases done with
  | push _ address =>
    refine peek_poke_ne s.mem _ fun same => unstored ?_
    exact (translate_ok_iff _ _).mpr ⟨by omega, by omega⟩
  | _ => rfl

theorem Completes.out_eq {i : Instr} {s t : State} (done : Completes i s t) (silent : ∀ r, i ≠ .prn r) :
    t.out = s.out := by
  cases done with
  | prn => exact absurd rfl (silent _)
  | _ => rfl

/-- Settles O35: the frame of a completed instruction, field by field; taking an error changes the latch alone. -/
theorem execFrame : Obligations.ExecFrame := by
  unfold Obligations.ExecFrame
  intro i s t h
  have flag : i ≠ .hlt → t.running = s.running := fun hi => (running_of_exec h).trans (if_neg hi)
  rcases exec_eq_next_iff.mp h with done | ⟨f, -, rfl⟩
  · exact ⟨fun _ => done.reg_eq, fun _ => done.peek_eq, done.out_eq, flag, done.config_eq, .inl done.fault_eq⟩
  · exact ⟨fun j _ => takeFault_reg s f j, fun _ _ => rfl, fun _ => rfl, flag, rfl, .inr ⟨nofun, rfl⟩⟩

/-- Settles O37: the step is the cycle of a PUSH, whose frame leaves every cell alone but the one it stores to. -/
theorem onlyPushWritesMemory : Obligations.OnlyPushWritesMemory := by
  unfold Obligations.OnlyPushWritesMemory
  intro s t c h changed
  obtain ⟨u, hu, how⟩ := step_next s
  cases hu.symm.trans h
  rcases how with ⟨-, rfl⟩ | ⟨-, f, rfl⟩ | ⟨he, i, hf, hx, -⟩
  · exact absurd rfl changed
  · exact absurd (congrArg (Memory.peek · c) (takeFault_mem s f)) changed
  · have stored : storesTo i s c := by
      by_contra unstored
      obtain ⟨-, kept, -⟩ := execFrame i s t hx
      exact changed (kept c unstored)
    cases i with
    | push r => exact ⟨he, peek_pc_of_fetchInstr_ok hf, ((translate_ok_iff _ _).mp stored).2.symm⟩
    | _ => cases stored

/-! ## Registers without influence -/

theorem eq_of_names {r : Byte} {i j : Fin 8} (named : r.toNat = i.val) (h : names r j = true) : i = j :=
  Fin.ext (named.symm.trans (of_decide_eq_true h))

theorem pushAddress_setReg {j : Fin 8} (s : State) (v : Int) (h : j ≠ 7) : pushAddress (s.setReg j v) = pushAddress s :=
  congrArg (fun x => s.wrap (x - 1)) (reg_setReg_ne s h v)

theorem popAddress_setReg {j : Fin 8} (s : State) (v : Int) (h : j ≠ 7) : popAddress (s.setReg j v) = popAddress s :=
  reg_setReg_ne s h v

theorem wrap_setReg (s : State) (j : Fin 8) (v u : Int) : (s.setReg j v).wrap u = s.wrap u := rfl

theorem advance_setReg (s : State) (j : Fin 8) (v : Int) (op : Opcode) :
    (s.advance op).setReg j v = (s.setReg j v).advance op := rfl

theorem pushed_setReg {i j : Fin 8} (s : State) (v : Int) (hi : j ≠ i) (h : j ≠ 7) :
    pushed (s.setReg j v) i = (pushed s i).setReg j v := by
  simp only [pushed, pushAddress_setReg s v h, setReg_comm s h, reg_setReg_ne _ hi, setReg_mem]
  rfl

theorem popped_setReg {i j : Fin 8} (s : State) (v : Int) (hi : j ≠ i) (h : j ≠ 7) :
    popped (s.setReg j v) i = (popped s i).setReg j v := by
  simp only [popped, popAddress_setReg s v h, setReg_comm _ hi, setReg_comm _ h, reg_setReg_ne _ h, setReg_mem,
    wrap_setReg]
  rfl

/-- POP writes its operand register without reading it. -/
theorem popped_setReg_self {i : Fin 8} (s : State) (v : Int) (h : i ≠ 7) : popped (s.setReg i v) i = popped s i := by
  simp only [popped, popAddress_setReg s v h, setReg_setReg_self, setReg_mem, wrap_setReg]

/-- Another value in a register that is not read leaves the errors as they are. -/
theorem Raises.setReg {i : Instr} {s : State} {f : Fault} (raised : Raises i s f) {j : Fin 8}
    (unread : readsReg i j = false) (v : Int) : Raises i (s.setReg j v) f := by
  cases raised with
  | index bad => exact .index bad _
  | push named address =>
    obtain ⟨-, seven⟩ := Bool.or_eq_false_iff.mp unread
    have same := pushAddress_setReg s v (ne_of_beq_false seven)
    exact same ▸ .push named (same ▸ address)
  | pop named address =>
    have same := popAddress_setReg s v (ne_of_beq_false unread)
    exact same ▸ .pop named (same ▸ address)
  | div first second zero =>
    obtain ⟨-, other⟩ := Bool.or_eq_false_iff.mp unread
    exact .div first second ((reg_setReg_ne s (ne_of_not_names second other).symm v).trans zero)

/-- Another value in a register that is neither read nor written is carried through. -/
theorem Completes.setReg {i : Instr} {s t : State} (done : Completes i s t) {j : Fin 8}
    (unread : readsReg i j = false) (unwritten : writesReg i j = false) (v : Int) :
    Completes i (s.setReg j v) (t.setReg j v) := by
  cases done with
  | hlt => exact .hlt _
  | ldi named w =>
    rw [advance_setReg, setReg_comm s (ne_of_not_names named unwritten)]
    exact .ldi named w _
  | prn named =>
    have same := reg_setReg_ne s (ne_of_not_names named unread).symm v
    exact same ▸ .prn named (s.setReg j v)
  | push named address =>
    obtain ⟨operand, seven⟩ := Bool.or_eq_false_iff.mp unread
    have h := ne_of_beq_false seven
    rw [← pushed_setReg s v (ne_of_not_names named operand).symm h]
    exact .push named ((pushAddress_setReg s v h).symm ▸ address)
  | pop named address =>
    obtain ⟨operand, seven⟩ := Bool.or_eq_false_iff.mp unwritten
    have h := ne_of_beq_false seven
    rw [← popped_setReg s v (ne_of_not_names named operand).symm h]
    exact .pop named ((popAddress_setReg s v h).symm ▸ address)
  | alu first second result =>
    rw [readsReg_aluInstr] at unread
    obtain ⟨one, two⟩ := Bool.or_eq_false_iff.mp unread
    rw [advance_setReg, setReg_comm s (ne_of_not_names first one)]
    rw [← reg_setReg_ne s (ne_of_not_names first one).symm v,
      ← reg_setReg_ne s (ne_of_not_names second two).symm v] at result
    exact .alu first second result

/-- Another value in a register that is written without being read makes no difference. -/
theorem Completes.setReg_of_written {i : Instr} {s t : State} (done : Completes i s t) {j : Fin 8}
    (unread : readsReg i j = false) (written : writesReg i j = true) (v : Int) :
    Completes i (s.setReg j v) t := by
  cases done with
  | hlt => cases written
  | ldi named w =>
    obtain rfl := eq_of_names named written
    exact setReg_setReg_self s _ v (zextW w) ▸ .ldi named w (s.setReg _ v)
  | prn => cases written
  | push =>
    obtain ⟨-, seven⟩ := Bool.or_eq_false_iff.mp unread
    cases seven.symm.trans written
  | pop named address =>
    have operand : names _ j = true := (Bool.or_eq_true_iff.mp written).resolve_right (Bool.eq_false_iff.mp unread)
    obtain rfl := eq_of_names named operand
    have h := ne_of_beq_false unread
    rw [← popped_setReg_self s v h]
    exact .pop named ((popAddress_setReg s v h).symm ▸ address)
  | alu =>
    rw [readsReg_aluInstr] at unread
    rw [writesReg_aluInstr] at written
    simp [written] at unread

/-- Settles O36: a register outside the table of R23 is left alone by the frame, and its value changes neither which of
its ends an instruction takes nor what it makes there. -/
theorem registersReadAndWritten : Obligations.RegistersReadAndWritten := by
  unfold Obligations.RegistersReadAndWritten
  intro i s t h
  obtain ⟨kept, -⟩ := execFrame i s t h
  refine ⟨kept, ?_⟩
  rcases exec_eq_next_iff.mp h with done | ⟨f, raised, rfl⟩
  · exact ⟨fun j v unread unwritten => (done.setReg unread unwritten v).exec_eq,
      fun j v unread written _ => (done.setReg_of_written unread written v).exec_eq⟩
  · exact ⟨fun j v unread _ => (raised.setReg unread v).exec_eq, fun _ _ _ _ empty => absurd empty nofun⟩

end Sys2Proof.Machine
end
